-- ==== Sys2Proof/Word.lean ====
section
/-! DEFINITION. The words of the driver: bytes, frames, command words, and the three lines (R8, R21). -/

namespace Sys2Proof

/-- An 8-bit operand (`segments`, `position`, `byte`), bit 0 least significant (R8). -/
abbrev Byte := BitVec 8

/-- A 16-bit frame, and the 16 stages `SR` and outputs `OUT` of the cascade (R30, R31, R80). -/
abbrev Frame := BitVec 16

/-- The 20-bit command word (R84). -/
abbrev CommandWord := BitVec 20

/-- The three control lines (R5, R8). -/
inductive Line where
  | latch
  | clock
  | data
deriving DecidableEq, Repr

/-- One value for each line, as plain data. -/
structure PerLine (α : Type) where
  latch : α
  clock : α
  data : α
deriving DecidableEq, Repr

/-- The value held for a line. -/
def PerLine.get {α : Type} (p : PerLine α) : Line → α
  | .latch => p.latch
  | .clock => p.clock
  | .data => p.data

/-- The same values but for one line. -/
def PerLine.set {α : Type} (p : PerLine α) (l : Line) (v : α) : PerLine α :=
  match l with
  | .latch => { p with latch := v }
  | .clock => { p with clock := v }
  | .data => { p with data := v }

end Sys2Proof
end

