-- ==== Sys2Proof/Config.lean ====
section
/-! DEFINITION. The structural constants (R5), the one timing constant (R6) and the open parameters (R7).
Plain-data parameters are a record that State carries and no step writes (log 4); the duration of a delay is a free
value (log 6); the three name maps are arguments of the functions that use them (log 7). -/

namespace Sys2Proof.Config

/-- `FRAME_BITS` (R5). -/
def frameBits : Nat := 16

/-- `BYTE_BITS` and `PULSES_PER_BYTE` (R5). -/
def byteBits : Nat := 8

/-- `T_HIGH_MIN`, 2 microseconds, in nanoseconds (R6). The literal is unaudited, says the spec. -/
def tHighMin : Nat := 2000

/-- By how much the `n`-th delay of a run exceeds the minimum, in nanoseconds: a FREE VALUE, since the spec gives a
lower bound and nothing else (R7, R121; log 6). No step reads it. -/
opaque tHighExcess : Nat → Nat

/-- `T_HIGH` as drawn for the `n`-th delay of a run (R7, R120). -/
def tHigh (n : Nat) : Nat := tHighMin + tHighExcess n

/-- The plain-data parameters of R7. The model takes them as an argument, in State; nothing writes them. -/
structure Params where
  /-- `CLR_POSITION`, the position byte `CLR` sends (R90, R151); unconstrained. -/
  clrPosition : Byte
  /-- `RESET_LEVEL`, the level of each line at reset (R35); unconstrained. -/
  resetLevel : PerLine Bool
  /-- `HOST_EXCLUSIVE`: the host keeps its mutual-exclusion obligation (R166, R196). -/
  hostExclusive : Bool
deriving DecidableEq, Repr

/-- The default instance of R7, which the spec's test vectors use (log 4). -/
def Params.standard : Params :=
  { clrPosition := 0x00, resetLevel := ⟨false, false, false⟩, hostExclusive := true }

/-- The names of the seven segments and the decimal point (R7). -/
inductive Segment where
  | a | b | c | d | e | f | g | dp
deriving DecidableEq, Repr

/-- `SEGMAP`: which segment each segment bit drives; any bijection (R7, log 7). -/
structure SegMap where
  seg : Fin 8 → Segment
  bijective : Function.Bijective seg

/-- The two segments a numeral 1 lights: those of bits 1 and 2, the one constraint the source gives (R7, R81). -/
def SegMap.numeralOne (m : SegMap) : List Segment := [m.seg 1, m.seg 2]

/-- `DIGITMAP`: the physical place of each digit position; any injection (R7, log 7). -/
structure DigitMap (Place : Type) where
  place : Fin 4 → Place
  injective : Function.Injective place

/-- `PINMAP`: the platform's pin of each line; any injection (R7, R69, log 7). No rule depends on it. -/
structure PinMap (Pin : Type) where
  pin : Line → Pin
  injective : Function.Injective pin

end Sys2Proof.Config
end

