-- ==== Sys2Proof/Syntax.lean ====
section
/-! DEFINITION. The seven operations of the block, one constructor for each row of spec/opcode_table.json (R11). -/

namespace Sys2Proof

/-- An operation with its operand values, captured by value (R11, R25, R66). The first three are the source's public
contract, the last four its internal components, which the command port accepts as well. -/
inductive Instr where
  /-- `INIT`: `init()` (R150). -/
  | init
  /-- `SHOW`: `show_digit(segments, position)`, in that operand order (R140, R94). -/
  | showDigit (segments position : Byte)
  /-- `CLR`: `clrscr()` (R151). -/
  | clr
  /-- `SHIFT`: `shift_out(byte)` (R130). -/
  | shift (byte : Byte)
  /-- `PULSE`: `pulse_clock()` (R120). -/
  | pulse
  /-- `SET`: `set(line, value)`, `true` the high level (R110). -/
  | setLine (line : Line) (value : Bool)
  /-- `CFGOUT`: `configure_as_output(line)` (R111). -/
  | cfgout (line : Line)
deriving DecidableEq, Repr

end Sys2Proof
end

