-- ==== Sys2Proof/WellFormed.lean ====
section
/-! DEFINITION. What is well formed. Every term of `Instr` is: its operands are bytes, bits and one of three lines, all
of them legal (R81, R89, R162). The checks are on the 20-bit command word, which can name no operation (R87, R88) or
carry ignored bits that are not zero (R86). They are written from the table of R85, not from the decoder. -/

namespace Sys2Proof

/-- Every operation, with every operand value, is well formed: no operand is ever validated (R68, R162). -/
def Instr.wellFormed : Instr → Bool
  | .init => true
  | .showDigit _ _ => true
  | .clr => true
  | .shift _ => true
  | .pulse => true
  | .setLine _ _ => true
  | .cfgout _ => true

/-- The word's opcode is one of the seven (R85, R87). -/
def opcodeAssigned (w : CommandWord) : Bool :=
  decide (0x10000 ≤ w.toNat) && decide (w.toNat < 0x80000)

/-- The word's line code, where its opcode has one, names a line: not 3 (R85, R88). -/
def lineCodeAssigned (w : CommandWord) : Bool :=
  match w.toNat / 0x10000 with
  | 6 => decide (w.toNat / 2 % 4 ≠ 3)
  | 7 => decide (w.toNat % 4 ≠ 3)
  | _ => true

/-- The word names an operation (R93). -/
def wordWellFormed (w : CommandWord) : Bool :=
  opcodeAssigned w && lineCodeAssigned w

/-- The bits of a word with opcode `op` that the decoder looks at: the opcode and the operand fields of R85. -/
def usedBits (op : Nat) : CommandWord :=
  match op with
  | 2 => 0xFFFFF#20
  | 4 => 0xF00FF#20
  | 6 => 0xF0007#20
  | 7 => 0xF0003#20
  | _ => 0xF0000#20

/-- The word is canonical: every ignored bit is 0 (R86). -/
def wordCanonical (w : CommandWord) : Bool :=
  w &&& usedBits (w.toNat / 0x10000) == w

end Sys2Proof
end

