-- ==== Sys2Proof/Decode.lean ====
section
/-! DEFINITION. The command word's decoder, total and stateless (R84 to R93), the encoder of canonical words (R85, R86),
and the host's view of a table row's word. -/

namespace Sys2Proof

/-- Why a command word names no operation (R87, R88, R162). -/
inductive DecodeReject where
  /-- `ReservedOpcode`: opcode `0x0` or `0x8` to `0xF` (R87). -/
  | reservedOpcode
  /-- `ReservedLine`: `SET` or `CFGOUT` with line code 3 (R88). -/
  | reservedLine
deriving DecidableEq, Repr

/-- The opcode, `cmd[19:16]` (R84). -/
def opField (w : CommandWord) : BitVec 4 := w.extractLsb' 16 4

/-- Operand byte `a`, `cmd[15:8]` (R84). -/
def aField (w : CommandWord) : Byte := w.extractLsb' 8 8

/-- Operand byte `b`, `cmd[7:0]` (R84). -/
def bField (w : CommandWord) : Byte := w.extractLsb' 0 8

/-- The line a 2-bit line code names; code 3 is reserved (R85, R88). -/
def lineOfCode (c : BitVec 2) : Except DecodeReject Line :=
  match c.toNat with
  | 0 => .ok .latch
  | 1 => .ok .clock
  | 2 => .ok .data
  | _ => .error .reservedLine

/-- The line code of a line (R85). -/
def codeOfLine : Line → BitVec 2
  | .latch => 0
  | .clock => 1
  | .data => 2

/-- Every 20-bit word is one of the seven operations with its operands, or reserved (R85, R89 to R93). Ignored bits are
not looked at (R86). -/
def decode (w : CommandWord) : Except DecodeReject Instr :=
  match (opField w).toNat with
  | 1 => .ok .init
  | 2 => .ok (.showDigit (bField w) (aField w))
  | 3 => .ok .clr
  | 4 => .ok (.shift (bField w))
  | 5 => .ok .pulse
  | 6 => (lineOfCode ((bField w).extractLsb' 1 2)).map fun l => .setLine l ((bField w).getLsbD 0)
  | 7 => (lineOfCode ((bField w).extractLsb' 0 2)).map fun l => .cfgout l
  | _ => .error .reservedOpcode

/-- The word with the three fields of R84. -/
def commandWord (op : BitVec 4) (a b : Byte) : CommandWord := op ++ a ++ b

/-- The canonical word of an operation, every ignored bit 0 (R85, R86, R110, R111, R120, R130, R140, R150, R151). -/
def encode : Instr → CommandWord
  | .init => commandWord 0x1 0 0
  | .showDigit segments position => commandWord 0x2 position segments
  | .clr => commandWord 0x3 0 0
  | .shift byte => commandWord 0x4 0 byte
  | .pulse => commandWord 0x5 0 0
  | .setLine line value => commandWord 0x6 0 ((0 : BitVec 5) ++ codeOfLine line ++ BitVec.ofBool value)
  | .cfgout line => commandWord 0x7 0 ((0 : BitVec 6) ++ codeOfLine line)

/-- The command word whose bits the host gives as a number: the low `nbits` bits of `w`, and of those the 20 that a
command word has. -/
def tableWord (nbits w : Nat) : CommandWord := BitVec.ofNat 20 (w % 2 ^ nbits)

/-- The operation the decoder reads from a table row's word. -/
def decodeTableWord (nbits w : Nat) : Option Instr :=
  match decode (tableWord nbits w) with
  | .ok i => some i
  | .error _ => none

end Sys2Proof
end

