-- ==== Sys2Proof/Machine/State.lean ====
section
/-! DEFINITION. The state of the driver, its load and the host's pending moves, as plain data; faults, refusals; reset
(R20 to R36, R161, R162, R190). -/

namespace Sys2Proof.Machine

open Sys2Proof.Config (Params)

/-- Whether a line has been configured as an output (R22). -/
inductive Dir where
  | unconf
  | out
deriving DecidableEq, Repr

/-- The two logical states (R23). -/
inductive Mode where
  | uninitialized
  | ready
deriving DecidableEq, Repr

/-- The host's two contexts (R165). -/
inductive Context where
  | main
  | irq
deriving DecidableEq, Repr

/-- The three micro-operations (R9). `delay` is `Delay(T_HIGH)`, the token `W` of R10; the model carries no durations
(R203). -/
inductive MicroOp where
  | lineWrite (line : Line) (value : Bool)
  | lineDir (line : Line)
  | delay
deriving DecidableEq, Repr

/-- An in-flight record: the operation with its captured operands, and `STEP`, the index of its next micro-operation
(R27, R28). -/
structure InFlight where
  op : Instr
  step : Nat
deriving DecidableEq, Repr

/-- What a fault names: the context, the operation and its `STEP` (R161). -/
structure Site where
  context : Context
  op : Instr
  step : Nat
deriving DecidableEq, Repr

/-- The faults of the model (R161). The hardware has none (R160); each stands where the source defines nothing. -/
inductive Fault where
  /-- Raised at issue, before any micro-operation, for an operation that writes a line not configured as an output:
  the source calls it undefined behavior (R161, R154). Safe: the model stops where the hardware goes on. -/
  | useBeforeInit (site : Site)
  /-- Raised by a write of DATA that changes its level while CLOCK is high: the sampled bit is then not determined
  (R64). Safe: an edge-triggered register would be unaffected. -/
  | dataChangeWhileClockHigh (site : Site)
  /-- Raised by a rising edge of CLOCK while LATCH is high: the shifter's precondition is broken and no outcome is given
  (R65). Safe: a real register may shift harmlessly. -/
  | shiftWhileLatchHigh (site : Site)
deriving DecidableEq, Repr

/-- The refusals of a step. The refusals of the spec (R162) are no stop of the run and are not here: they set the mark
`State.refused` and the run goes on. -/
inductive Refusal where
  /-- Raised by `exec` for an operation without a meaning. Safe: nothing is claimed of it. No arm of `exec` raises it:
  all seven operations have their meaning. -/
  | notModelled (mnemonic : String)
deriving DecidableEq, Repr

/-- A move of the host (R20 b, R165, R166): the model's form of the inputs (log 1, log 3). -/
inductive HostMove where
  /-- The event `Issue(c, word)`: it makes an in-flight record and performs no micro-operation (R166). -/
  | issue (c : Context) (word : CommandWord)
  /-- A call that returns: the issue and the whole operation, nothing of the host's in between (R165, R208). -/
  | call (c : Context) (word : CommandWord)
  /-- The host does nothing for one step, and the engine takes one. -/
  | pass
deriving DecidableEq, Repr

/-- Everything the spec gives the machine (R21 to R34), and the model's own three fields `params`, `host`, `caller`. -/
structure State where
  /-- `LEVEL[l]`, `true` high (R21). -/
  level : PerLine Bool
  /-- `DIR[l]` (R22). -/
  dir : PerLine Dir
  /-- `INFL[MAIN]` (R28). -/
  inflMain : Option InFlight
  /-- `INFL[IRQ]` (R28). -/
  inflIrq : Option InFlight
  /-- `SR[15:0]`, stage 0 the one DATA enters (R30). -/
  sr : Frame
  /-- `OUT[15:0]`, the committed frame (R31). -/
  out : Frame
  /-- The mark `FAULT` (R33, R161). A step that faults answers the fault; the state marked with it is quiescent. -/
  fault : Option Fault
  /-- The mark `REFUSED` (R33, R162). -/
  refused : Option DecodeReject
  /-- `TRACE`, oldest first (R10, R34). -/
  trace : List MicroOp
  /-- The parameters of R7, never written (log 4). -/
  params : Params
  /-- The host's moves still to come, the next one first (log 1). -/
  host : List HostMove
  /-- The context of the operation delivered last, named by a fault (R161; log 2). -/
  caller : Context
deriving DecidableEq, Repr

/-- The state after reset for given parameters and given unspecified contents of the load (R35, R190, R191). A claim
about reset is stated of every `p`, `sr` and `out`. -/
def State.resetWith (p : Params) (sr out : Frame) : State :=
  { level := p.resetLevel
    dir := ⟨.unconf, .unconf, .unconf⟩
    inflMain := none
    inflIrq := none
    sr := sr
    out := out
    fault := none
    refused := none
    trace := []
    params := p
    host := []
    caller := .main }

/-- The state after reset: the default parameters of R7, and 0 in the load, where the spec gives no value
(DESIGN CHOICE, log 4 and log 5). -/
def State.reset : State := State.resetWith Params.standard 0 0

end Sys2Proof.Machine
end

