-- ==== Sys2Proof/Machine/Ops.lean ====
section
/-! DEFINITION. The named operations on the state: lines, in-flight records, the trace; the three micro-operations with
the load's reactions and the fault checks (R9, R54 to R56, R64, R65, R110); the running of a micro-operation list, and
where it stands when it faults (R170); the admission check (R161). There is no exception entry and no return from one: the block has neither (R160, R170, R171). -/

namespace Sys2Proof.Machine

/-- What one step, or one operation, answers. -/
abbrev Result := Host.Outcome State Fault Refusal

/-- Go on with `f` from a next state; a fault or a refusal stays. -/
def andThen (r : Result) (f : State → Result) : Result :=
  match r with
  | .next s => f s
  | .fault x => .fault x
  | .refused x => .refused x

/-- `LEVEL[l] <- v` (R110 item 4). -/
def State.setLevel (s : State) (l : Line) (v : Bool) : State := { s with level := s.level.set l v }

/-- `DIR[l] <- OUT` (R111). -/
def State.configure (s : State) (l : Line) : State := { s with dir := s.dir.set l .out }

/-- `MODE`, a function of `DIR` (R23). -/
def State.mode (s : State) : Mode :=
  if s.dir.latch = .out ∧ s.dir.clock = .out ∧ s.dir.data = .out then .ready else .uninitialized

/-- `INFL[c]` (R28). -/
def State.infl (s : State) : Context → Option InFlight
  | .main => s.inflMain
  | .irq => s.inflIrq

/-- `INFL[c] <- r` (R28). -/
def State.setInfl (s : State) (c : Context) (r : Option InFlight) : State :=
  match c with
  | .main => { s with inflMain := r }
  | .irq => { s with inflIrq := r }

/-- Append a micro-operation to `TRACE` (R29, R34). -/
def State.record (s : State) (m : MicroOp) : State := { s with trace := s.trace ++ [m] }

/-- The mark `REFUSED` set: sticky, so a mark that is set keeps its reason (R33, R162; log 8). -/
def State.refuse (s : State) (r : DecodeReject) : State := { s with refused := some (s.refused.getD r) }

/-- The mark `FAULT` set: the spec's quiescent state after a step that faulted (R161). -/
def State.halt (s : State) (f : Fault) : State := { s with fault := some f }

/-- `SR[14:0] ‖ d`: every stage moves one place away from DATA and stage 0 takes `d` (R54, R68 c). -/
def chainShift (sr : Frame) (d : Bool) : Frame := (sr.extractLsb' 0 15).concat d

/-- `LineWrite(l, v)`, items 1 to 4 of R110, in that order: the load looks at the levels before the write (R113). -/
def lineWrite (site : Site) (l : Line) (v : Bool) (s : State) : Result :=
  match l with
  | .data =>
    if s.level.clock && (v != s.level.data) then .fault (.dataChangeWhileClockHigh site)
    else .next (s.setLevel .data v)
  | .clock =>
    if v && !s.level.clock then
      if s.level.latch then .fault (.shiftWhileLatchHigh site)
      else .next ({ s with sr := chainShift s.sr s.level.data }.setLevel .clock v)
    else .next (s.setLevel .clock v)
  | .latch =>
    if v && !s.level.latch then .next ({ s with out := s.sr }.setLevel .latch v)
    else .next (s.setLevel .latch v)

/-- The effect of one micro-operation (R9): a line write, a line made an output (R111), a delay, which changes nothing
(R174). -/
def perform (site : Site) (m : MicroOp) (s : State) : Result :=
  match m with
  | .lineWrite l v => lineWrite site l v s
  | .lineDir l => .next (s.configure l)
  | .delay => .next s

/-- One micro-operation performed and appended to the trace, whether or not it changes a level (R29, R61). -/
def performTraced (site : Site) (m : MicroOp) (s : State) : Result :=
  andThen (perform site m s) fun t => .next (t.record m)

/-- The micro-operations of operation `i` from its `STEP` `k` on, in list order (R28, R29, R62). -/
def runOps (c : Context) (i : Instr) (k : Nat) : List MicroOp → State → Result
  | [], s => .next s
  | m :: ms, s => andThen (performTraced ⟨c, i, k⟩ m s) (runOps c i (k + 1) ms)

/-- The state at the micro-operation of the list that faults, reached from `s`: every earlier one performed in full, the
record standing at the one that faults (R170). When none faults, the state after the whole list. -/
def faultPoint (c : Context) (i : Instr) (k : Nat) : List MicroOp → State → State
  | [], s => s
  | m :: ms, s =>
    match performTraced ⟨c, i, k⟩ m s with
    | .next t => faultPoint c i (k + 1) ms t
    | .fault _ => s.setInfl c (some ⟨i, k⟩)
    | .refused _ => s

/-- The admission check: every line of the list is an output (R161). -/
def linesConfigured (lines : List Line) (s : State) : Bool :=
  lines.all fun l => s.dir.get l == .out

/-- A whole operation, issued by the context `s.caller` and run to completion with nothing in between (R165, R166,
R208): nothing is enabled in a faulted state (R161); the admission check on `lines`; then the micro-operations `ops`. -/
def runOperation (i : Instr) (lines : List Line) (ops : List MicroOp) (s : State) : Result :=
  match s.fault with
  | some f => .fault f
  | none =>
    if linesConfigured lines s then runOps s.caller i 0 ops s
    else .fault (.useBeforeInit ⟨s.caller, i, 0⟩)

end Sys2Proof.Machine
end

