-- ==== Sys2Proof/Machine/Operands.lean ====
section
/-! DEFINITION. The operand forms of the block: the bits of a byte in wire order and the frame of two bytes (R52, R53,
R80, R89). There are no addressing modes (R112), no immediates to extend (R91) and no flags (R26). -/

namespace Sys2Proof.Machine

/-- The bits of a byte in the order they are sent: most significant first (R52, R133). -/
def bitsMsbFirst (b : Byte) : List Bool :=
  [b.getLsbD 7, b.getLsbD 6, b.getLsbD 5, b.getLsbD 4, b.getLsbD 3, b.getLsbD 2, b.getLsbD 1, b.getLsbD 0]

/-- `frame = position ‖ segments`, all 8 bits of each as they are (R53, R89, R141). The operands come in the order of
`show_digit` (R94). -/
def frameOf (segments position : Byte) : Frame := position ++ segments

end Sys2Proof.Machine
end

