-- ==== Sys2Proof/Machine/PinInterface.lean ====
section
/-! DEFINITION. The Pin Interface: `SET` and `CFGOUT` (R110 to R113). -/

namespace Sys2Proof.Machine

/-- `X(SET, line, value)` (R110). -/
def setOps (line : Line) (value : Bool) : List MicroOp := [.lineWrite line value]

/-- The lines `SET` needs as outputs: the one it writes, no other (R161). -/
def setLines (line : Line) : List Line := [line]

/-- `SET line, value` (R110). -/
def execSetLine (line : Line) (value : Bool) (s : State) : Result :=
  runOperation (.setLine line value) (setLines line) (setOps line value) s

/-- `X(CFGOUT, line)` (R111). -/
def cfgoutOps (line : Line) : List MicroOp := [.lineDir line]

/-- `CFGOUT` is legal in every state: it needs no line (R111, R161). -/
def cfgoutLines : List Line := []

/-- `CFGOUT line` (R111). -/
def execCfgout (line : Line) (s : State) : Result :=
  runOperation (.cfgout line) cfgoutLines (cfgoutOps line) s

end Sys2Proof.Machine
end

