-- ==== Sys2Proof/Machine/ClockPulse.lean ====
section
/-! DEFINITION. The Clock Pulse Primitive: `PULSE` (R120 to R123). -/

namespace Sys2Proof.Machine

/-- `X(PULSE)`: CLOCK high, the delay, CLOCK low (R120, R122). -/
def pulseOps : List MicroOp := [.lineWrite .clock true, .delay, .lineWrite .clock false]

/-- The line `PULSE` needs as an output (R161). -/
def pulseLines : List Line := [.clock]

/-- `PULSE` (R120). -/
def execPulse (s : State) : Result := runOperation .pulse pulseLines pulseOps s

end Sys2Proof.Machine
end

