-- ==== Sys2Proof/Machine/BitShifter.lean ====
section
/-! DEFINITION. The Bit Shifter: `SHIFT` (R130 to R135). -/

namespace Sys2Proof.Machine

/-- One bit on the wire: the DATA write, then a pulse (R130). -/
def bitOps (v : Bool) : List MicroOp := .lineWrite .data v :: pulseOps

/-- `X(SHIFT, byte)`: for each bit, most significant first, the DATA write and `X(PULSE)`; 32 micro-operations (R130). -/
def shiftOps (byte : Byte) : List MicroOp := (bitsMsbFirst byte).flatMap bitOps

/-- The lines `SHIFT` needs as outputs (R161). -/
def shiftLines : List Line := [.data, .clock]

/-- `SHIFT byte` (R130). -/
def execShift (byte : Byte) (s : State) : Result := runOperation (.shift byte) shiftLines (shiftOps byte) s

end Sys2Proof.Machine
end

