-- ==== Sys2Proof/Machine/DisplayDriver.lean ====
section
/-! DEFINITION. The Display Driver: `SHOW` (R140 to R148). -/

namespace Sys2Proof.Machine

/-- `X(SHOW, segments, position)`: LATCH low, the position byte, the segments byte, LATCH high; 66 micro-operations
(R140, R148). -/
def showOps (segments position : Byte) : List MicroOp :=
  .lineWrite .latch false :: (shiftOps position ++ shiftOps segments ++ [.lineWrite .latch true])

/-- `SHOW` and `CLR` need `MODE = READY`: all three lines outputs (R161, R23). -/
def frameLines : List Line := [.latch, .clock, .data]

/-- `SHOW segments, position` (R140). -/
def execShowDigit (segments position : Byte) (s : State) : Result :=
  runOperation (.showDigit segments position) frameLines (showOps segments position) s

end Sys2Proof.Machine
end

