-- ==== Sys2Proof/Machine/InitClear.lean ====
section
/-! DEFINITION. Initialization and Clear: `INIT` and `CLR` (R150 to R155). -/

namespace Sys2Proof.Machine

/-- `X(INIT)`: the three lines made outputs, in this order (R150). -/
def initOps : List MicroOp := [.lineDir .latch, .lineDir .clock, .lineDir .data]

/-- `INIT` is legal in every state (R150, R161). -/
def initLines : List Line := []

/-- `INIT` (R150). -/
def execInit (s : State) : Result := runOperation .init initLines initOps s

/-- `X(CLR) = X(SHOW, 0xFF, CLR_POSITION)` (R151). -/
def clrOps (clrPosition : Byte) : List MicroOp := showOps 0xFF clrPosition

/-- `CLR` (R151). -/
def execClr (s : State) : Result := runOperation .clr frameLines (clrOps s.params.clrPosition) s

end Sys2Proof.Machine
end

