-- ==== Sys2Proof/Machine/Engine.lean ====
section
/-! DEFINITION. The engine at the spec's own grain, one micro-operation a step (R27 to R29), the event `Issue` (R166),
the delivery of the host's next move (R165 to R168), and the state a fault leaves (R170). -/

namespace Sys2Proof.Machine

open Sys2Proof.Config (Params)

/-- `X(op, args)`: a function of the operation and the parameters alone, never of the rest of the state (R26, R28). -/
def microOps (p : Params) : Instr → List MicroOp
  | .init => initOps
  | .showDigit segments position => showOps segments position
  | .clr => clrOps p.clrPosition
  | .shift byte => shiftOps byte
  | .pulse => pulseOps
  | .setLine line value => setOps line value
  | .cfgout line => cfgoutOps line

/-- The lines the admission check of an operation asks for (R161). -/
def linesNeeded : Instr → List Line
  | .init => initLines
  | .showDigit _ _ => frameLines
  | .clr => frameLines
  | .shift _ => shiftLines
  | .pulse => pulseLines
  | .setLine line _ => setLines line
  | .cfgout _ => cfgoutLines

/-- The context the engine serves: IRQ when it has a record, else MAIN (R167). -/
def activeContext (s : State) : Context :=
  if s.inflIrq.isSome then .irq else .main

/-- Nothing is in flight in either context (R208 `Idle`). -/
def State.idle (s : State) : Bool := s.inflMain.isNone && s.inflIrq.isNone

/-- The record after its micro-operation `k` has been performed: `STEP` goes up by one, and at the end of the list the
record is removed, which is completion (R27, R29). -/
def nextRecord (p : Params) (r : InFlight) : Option InFlight :=
  if r.step + 1 < (microOps p r.op).length then some { r with step := r.step + 1 } else none

/-- The engine step (R29): the next micro-operation of the active context's record, traced; then the record moves on or
is removed. With nothing in flight it is not enabled and changes nothing. A record whose `STEP` has reached the end of
its list, which no run makes, is removed (R27). -/
def engineStep (s : State) : Result :=
  let c := activeContext s
  match s.infl c with
  | none => .next s
  | some r =>
    match (microOps s.params r.op)[r.step]? with
    | none => .next (s.setInfl c none)
    | some m =>
      andThen (performTraced ⟨c, r.op, r.step⟩ m s) fun t => .next (t.setInfl c (nextRecord s.params r))

/-- `n` engine steps with no move of the host's in between. -/
def engineSteps : Nat → State → Result
  | 0, s => .next s
  | n + 1, s => andThen (engineStep s) (engineSteps n)

/-- `Issue(c, word)` after its decoding: the admission check, then the record with `STEP` 0; no micro-operation (R166). -/
def issue (c : Context) (i : Instr) (s : State) : Result :=
  if linesConfigured (linesNeeded i) s then .next (s.setInfl c (some ⟨i, 0⟩))
  else .fault (.useBeforeInit ⟨c, i, 0⟩)

/-- When `Issue(c, …)` is enabled (R166). -/
def issueEnabled (c : Context) (s : State) : Bool :=
  match c with
  | .main => s.inflMain.isNone && s.inflIrq.isNone
  | .irq => s.inflIrq.isNone && (!s.params.hostExclusive || s.inflMain.isNone)

/-- What the next step is to do, with the state it starts from. -/
inductive Delivery where
  /-- Nothing in flight and nothing to issue: the block is idle (R179, R190). -/
  | idle (s : State)
  /-- The engine takes a step (R29). -/
  | engine (s : State)
  /-- A reserved word was issued by the context `c` (R162). -/
  | reserved (c : Context) (r : DecodeReject) (s : State)
  /-- An operation is issued (R166). -/
  | issue (c : Context) (i : Instr) (s : State)
  /-- An operation is called and runs to completion (R165). -/
  | call (i : Instr) (s : State)

/-- The engine's turn: a step of it when something is in flight, else nothing. -/
def engineTurn (s : State) : Delivery := if s.idle then .idle s else .engine s

/-- The host's next move. A word is decoded when it is issued, before anything else (R166). An `Issue` that is not
enabled waits: something is then in flight, and the engine takes a step (R166 to R168). With no move left the engine
goes on by itself (R203). -/
def deliver (s : State) : Delivery :=
  match s.host with
  | [] => engineTurn s
  | .pass :: rest => engineTurn { s with host := rest }
  | .issue c word :: rest =>
    if issueEnabled c s then
      match decode word with
      | .ok i => .issue c i { s with host := rest, caller := c }
      | .error r => .reserved c r { s with host := rest }
    else .engine s
  | .call c word :: rest =>
    if issueEnabled c s then
      match decode word with
      | .ok i => .call i { s with host := rest, caller := c }
      | .error r => .reserved c r { s with host := rest }
    else .engine s

/-- The state a step that faults leaves, but for the mark: the move delivered, nothing else changed; for a called
operation its admitted micro-operations before the one that faults are performed in full and its record stands at that
one, as after its issue and engine steps (R161, R170; log 3, log 12). A faulted state stays as it is. -/
def faultState (s : State) : State :=
  match s.fault with
  | some _ => s
  | none =>
    match deliver s with
    | .idle t => t
    | .engine t => t
    | .reserved _ _ t => t
    | .issue _ _ t => t
    | .call i t =>
      if linesConfigured (linesNeeded i) t then faultPoint t.caller i 0 (microOps t.params i) t else t

/-- The state in which the very next step is MAIN's call of `word`: the call put before the host's other moves, nothing
in flight, no fault mark. -/
def placeCall (word : CommandWord) (s : State) : State :=
  { s with host := .call .main word :: s.host, inflMain := none, inflIrq := none, fault := none }

end Sys2Proof.Machine
end

