-- ==== Sys2Proof/Machine/Dispatch.lean ====
section
/-! DEFINITION. The meaning of each operation: one arm a constructor (R11). -/

namespace Sys2Proof.Machine

def exec (i : Instr) (s : State) : Host.Outcome State Fault Refusal :=
  match i with
  | .init => Sys2Proof.Machine.execInit s
  | .showDigit segments position => Sys2Proof.Machine.execShowDigit segments position s
  | .clr => Sys2Proof.Machine.execClr s
  | .shift byte => Sys2Proof.Machine.execShift byte s
  | .pulse => Sys2Proof.Machine.execPulse s
  | .setLine line value => Sys2Proof.Machine.execSetLine line value s
  | .cfgout line => Sys2Proof.Machine.execCfgout line s

end Sys2Proof.Machine
end

