-- ==== Sys2Proof/Machine/Step.lean ====
section
/-! DEFINITION. One step of the machine, and the placing of an operation so that the next step runs it. -/

namespace Sys2Proof.Machine

/-- One step: a faulted state is quiescent (R161); else the host's next move is delivered or the engine takes a step
(R29, R165 to R168). A called operation is `exec` of it; a reserved word sets the mark `REFUSED` and the run goes on
(R162). -/
def step (s : State) : Host.Outcome State Fault Refusal :=
  match s.fault with
  | some f => .fault f
  | none =>
    match deliver s with
    | .idle t => .next t
    | .engine t => engineStep t
    | .reserved _ r t => .next (t.refuse r)
    | .issue c i t => issue c i t
    | .call i t => exec i t

/-- `s` with the word of a table row as MAIN's next call, so that the very next step runs it (log 11). -/
def State.withFetchWord (s : State) (nbits w : Nat) : State := placeCall (tableWord nbits w) s

end Sys2Proof.Machine
end

