-- ==== Sys2Proof/Safety.lean ====
section
/-! DEFINITION. What claims are stated in: what the display shows (R32), the named premises (R208), the end of a run
(R205), the spec's own transition with its fault mark (R161), the invariant (R37), the delays of a list (R121). -/

namespace Sys2Proof.Machine

open Sys2Proof.Config

/-- Digit position `k` is energized (R32, active high). -/
def energized (out : Frame) (k : Fin 4) : Bool := out.getLsbD (12 + k.val)

/-- Segment output `j` is driven lit (R32, active low). -/
def drivenLit (out : Frame) (j : Fin 8) : Bool := !out.getLsbD j.val

/-- `lit(k, j)`: segment output `j` of digit `k` is lit (R32). -/
def lit (out : Frame) (k : Fin 4) (j : Fin 8) : Bool := energized out k && drivenLit out j

/-- The segment `y` at the place `x` of the display is lit, for given `SEGMAP` and `DIGITMAP` (R7, R32). -/
def litAt {Place : Type} (m : SegMap) (d : DigitMap Place) (out : Frame) (x : Place) (y : Segment) : Prop :=
  ∃ k j, d.place k = x ∧ m.seg j = y ∧ lit out k j = true

/-- `NoMark` (R208). -/
abbrev NoMark (s : State) : Prop := s.fault = none ∧ s.refused = none

/-- `Idle` (R208). -/
abbrev Idle (s : State) : Prop := s.inflMain = none ∧ s.inflIrq = none

/-- `Ready` (R208, R23). -/
abbrev Ready (s : State) : Prop := s.mode = .ready

/-- `ClockLow` (R208). -/
abbrev ClockLow (s : State) : Prop := s.level.clock = false

/-- `LatchLow` (R208). -/
abbrev LatchLow (s : State) : Prop := s.level.latch = false

/-- `FrameEntry` (R208). -/
abbrev FrameEntry (s : State) : Prop := NoMark s ∧ Idle s ∧ Ready s ∧ ClockLow s

/-- The entry condition of a direct `PULSE` (R208). -/
abbrev PulseEntry (s : State) : Prop := NoMark s ∧ Idle s ∧ s.dir.clock = .out ∧ ClockLow s ∧ LatchLow s

/-- `ShiftEntry` (R208). -/
abbrev ShiftEntry (s : State) : Prop := PulseEntry s ∧ s.dir.data = .out

/-- The next step is an `Issue` of the IRQ context's, as `issue` or as `call`, of an operation or of a reserved word
(R166). -/
def irqDelivered (s : State) : Bool :=
  match deliver s with
  | .idle _ => false
  | .engine _ => false
  | .reserved c _ _ => decide (c = .irq)
  | .issue c _ _ => decide (c = .irq)
  | .call _ t => decide (t.caller = .irq)

/-- `Unpreempted`, of the next `n` steps: no `Issue` of IRQ's, of a reserved word neither, occurs while a MAIN operation
is in flight (R208). -/
def Unpreempted : Nat → State → Prop
  | 0, _ => True
  | n + 1, s =>
    (s.inflMain.isSome = true → irqDelivered s = false) ∧
      match step s with
      | .next t => Unpreempted n t
      | _ => True

/-- The spec's own transition: a step that faults leaves its `faultState`, every earlier micro-operation performed and
nothing of the faulting one, with the mark `FAULT` set, and that state is quiescent (R161, R170). -/
def advance (s : State) : State :=
  match step s with
  | .next t => t
  | .fault f => (faultState s).halt f
  | .refused _ => s

/-- `n` steps, stopping at the first fault. -/
def stepsFrom : Nat → State → Result
  | 0, s => .next s
  | n + 1, s => andThen (step s) (stepsFrom n)

/-- The run is over (R205). -/
abbrev RunOver (s : State) : Prop := s.host = [] ∧ Idle s

/-- The run ended well (R205). -/
abbrev EndedWell (s : State) : Prop := RunOver s ∧ NoMark s

/-- Every line a micro-operation of the list writes is an output in `s` (R37 a). -/
abbrev WritesConfigured (ms : List MicroOp) (s : State) : Prop :=
  ∀ l v, MicroOp.lineWrite l v ∈ ms → s.dir.get l = .out

/-- An in-flight record stands before the end of its list, and the lines of its operation are outputs (R27, R161). -/
abbrev RecordOk (s : State) (r : InFlight) : Prop :=
  r.step < (microOps s.params r.op).length ∧ linesConfigured (linesNeeded r.op) s = true

/-- The invariant every step keeps: every line ever written is an output (R37 a), the in-flight records are sound
(R27, R161), and a host that keeps its obligation never has two operations in flight (R166, R196). -/
structure Inv (s : State) : Prop where
  traceConfigured : WritesConfigured s.trace s
  mainOk : ∀ r, s.inflMain = some r → RecordOk s r
  irqOk : ∀ r, s.inflIrq = some r → RecordOk s r
  exclusive : s.params.hostExclusive = true → s.inflMain = none ∨ s.inflIrq = none

/-- The level the last write of line `l` in the list gives it, `v` when there is none. -/
def lastWritten (l : Line) : Bool → List MicroOp → Bool
  | v, [] => v
  | v, .lineWrite l' v' :: ms => lastWritten l (if l' = l then v' else v) ms
  | v, .lineDir _ :: ms => lastWritten l v ms
  | v, .delay :: ms => lastWritten l v ms

/-- The time the engine waits in the delays of the list, the first of which is the run's `n`-th, in nanoseconds
(R120, R121). -/
def waitTime : Nat → List MicroOp → Nat
  | _, [] => 0
  | n, .delay :: ms => tHigh n + waitTime (n + 1) ms
  | n, .lineWrite _ _ :: ms => waitTime n ms
  | n, .lineDir _ :: ms => waitTime n ms

end Sys2Proof.Machine
end

