-- ==== Sys2Proof/Certificates/Slice0/Obligations.lean ====
section
/-! DEFINITION. The statements for the provers. Where a statement rests on a decision of the spec's own (its marks
[decision: see 92_eei_decisions.md D<n>]) or on a choice of the model (a log entry), its docstring names it. -/

open Sys2Proof Sys2Proof.Machine Sys2Proof.Config

/-! Encoding. The command word is the spec's own decision D1. -/

/-- The canonical word of every operation, with every operand value, decodes to that operation (R85, R89 to R91;
decision D1). -/
def Obligations.DecodeOfEncodeIsTheOperation : Prop :=
  ∀ i : Instr, decode (encode i) = .ok i

/-- Words that differ only in ignored bits decode alike, and the encoder of a decoded word gives that word with the
ignored bits cleared (R86; decision D16). -/
def Obligations.IgnoredBitsDoNotMatter : Prop :=
  (∀ w w' : CommandWord, w &&& usedBits (w.toNat / 0x10000) = w' &&& usedBits (w.toNat / 0x10000) →
      decode w = decode w') ∧
    ∀ (w : CommandWord) (i : Instr), decode w = .ok i → encode i = w &&& usedBits (w.toNat / 0x10000)

/-- Decode is total, and its three outcomes are told apart by the table of R85: the word names an operation, its opcode
is reserved, or its line code is (R87, R88, R93; decisions D1, D15). -/
def Obligations.EveryWordDecodesOrIsReserved : Prop :=
  ∀ w : CommandWord,
    if (w.toNat / 0x10000 = 0 ∨ 8 ≤ w.toNat / 0x10000) then decode w = .error .reservedOpcode
    else if (w.toNat / 0x10000 = 6 ∧ w.toNat / 2 % 4 = 3) ∨ (w.toNat / 0x10000 = 7 ∧ w.toNat % 4 = 3) then
      decode w = .error .reservedLine
    else ∃ i, decode w = .ok i

/-- The words of the spec's encoding tables and test vectors (95_test_vectors.md section 2.6) decode as they say. -/
def Obligations.SpecWordsDecode : Prop :=
  decode 0x1ABCD = .ok .init ∧
    decode 0x210F9 = .ok (.showDigit 0xF9 0x10) ∧
    decode 0x3FFFF = .ok .clr ∧
    decode 0x4FFA5 = .ok (.shift 0xA5) ∧
    decode 0x51234 = .ok .pulse ∧
    decode 0x60003 = .ok (.setLine .clock true) ∧
    decode 0x600FD = .ok (.setLine .data true) ∧
    decode 0x700FC = .ok (.cfgout .latch) ∧
    decode 0x00000 = .error .reservedOpcode ∧
    decode 0x80000 = .error .reservedOpcode ∧
    decode 0x600FE = .error .reservedLine ∧
    decode 0x70003 = .error .reservedLine

/-! The host's moves, issue and the engine. The grain of a step and the two contexts are the spec's decisions D2, D4,
D14; the list of moves and the `call` move are the model's (log 1, log 3). -/

/-- A step that delivers a call of a word of operation `i` is `exec i`, with the move taken off the list and the caller
noted; and a word placed by `withFetchWord` is run by the very next step (R165, R166; log 3, log 11). -/
def Obligations.StepRunsTheCalledOperation : Prop :=
  (∀ (s : State) (c : Context) (w : CommandWord) (i : Instr) (rest : List HostMove),
      s.fault = none → s.host = .call c w :: rest → issueEnabled c s = true → decode w = .ok i →
        step s = exec i { s with host := rest, caller := c }) ∧
    ∀ (s : State) (nbits w : Nat) (i : Instr), decodeTableWord nbits w = some i →
      step (s.withFetchWord nbits w) =
        exec i { s with inflMain := none, inflIrq := none, fault := none, caller := .main }

/-- A called operation is exactly its issue and its engine steps, one micro-operation each, with no move of the host's
in between: the same next state, or the same fault naming the same context, operation and STEP (R27 to R29, R166;
decision D4, log 3). -/
def Obligations.CallIsIssueThenEngineSteps : Prop :=
  ∀ (s : State) (c : Context) (w : CommandWord) (i : Instr) (rest : List HostMove),
    s.fault = none → issueEnabled c s = true → decode w = .ok i →
      stepsFrom ((microOps s.params i).length + 1)
          { s with host := .issue c w :: (List.replicate (microOps s.params i).length .pass ++ rest) } =
        step { s with host := .call c w :: rest }

/-- `Issue` of an admitted operation makes the record with STEP 0 and performs no micro-operation (R166; decisions D2,
D14). -/
def Obligations.IssueMakesTheRecordOnly : Prop :=
  ∀ (s : State) (w : CommandWord) (i : Instr) (rest : List HostMove),
    s.fault = none → decode w = .ok i → linesConfigured (linesNeeded i) s = true →
      (issueEnabled .main s = true → s.host = .issue .main w :: rest →
        step s = .next { s with host := rest, caller := .main, inflMain := some ⟨i, 0⟩ }) ∧
      (issueEnabled .irq s = true → s.host = .issue .irq w :: rest →
        step s = .next { s with host := rest, caller := .irq, inflIrq := some ⟨i, 0⟩ })

/-- Issue is enabled for MAIN exactly when nothing is in flight, for IRQ exactly when IRQ has nothing in flight and,
where the host is exclusive, MAIN has nothing either; an issue that is not enabled waits and the engine takes a step
(R166, R168; decision D14, and the waiting is the model's form of it, log 1). -/
def Obligations.IssueNotEnabledWaits : Prop :=
  ∀ s : State,
    (issueEnabled .main s = true ↔ s.inflMain = none ∧ s.inflIrq = none) ∧
      (issueEnabled .irq s = true ↔ s.inflIrq = none ∧ (s.params.hostExclusive = false ∨ s.inflMain = none)) ∧
      ∀ (c : Context) (w : CommandWord) (rest : List HostMove),
        s.fault = none → s.host = .issue c w :: rest ∨ s.host = .call c w :: rest →
          (c = .main ∧ (s.inflMain ≠ none ∨ s.inflIrq ≠ none)) ∨
            (c = .irq ∧ (s.inflIrq ≠ none ∨ (s.params.hostExclusive = true ∧ s.inflMain ≠ none))) →
          step s = engineStep s ∧ ∀ t, engineStep s = .next t → t.host = s.host

/-- The engine serves IRQ while it has a record, and MAIN's record waits unchanged; the step performs the operation's
micro-operation number STEP and no other: the state is that micro-operation's, with it traced once and with STEP gone up
by one or the record removed, and nothing else; where the micro-operation faults, the step answers that fault (R27, R29,
R167; decisions D4, D14). -/
def Obligations.EngineServesTheInterruptContextFirst : Prop :=
  ∀ (s : State) (r : InFlight) (m : MicroOp), (microOps s.params r.op)[r.step]? = some m →
    (s.inflIrq = some r →
      (∀ t, engineStep s = .next t ↔ ∃ u, perform ⟨.irq, r.op, r.step⟩ m s = .next u ∧
        t = { u with
          trace := s.trace ++ [m]
          inflIrq := if r.step + 1 < (microOps s.params r.op).length then some ⟨r.op, r.step + 1⟩ else none } ∧
        t.inflMain = s.inflMain) ∧
      ∀ f, engineStep s = .fault f ↔ perform ⟨.irq, r.op, r.step⟩ m s = .fault f) ∧
    (s.inflIrq = none → s.inflMain = some r →
      (∀ t, engineStep s = .next t ↔ ∃ u, perform ⟨.main, r.op, r.step⟩ m s = .next u ∧
        t = { u with
          trace := s.trace ++ [m]
          inflMain := if r.step + 1 < (microOps s.params r.op).length then some ⟨r.op, r.step + 1⟩ else none } ∧
        t.inflIrq = none) ∧
      ∀ f, engineStep s = .fault f ↔ perform ⟨.main, r.op, r.step⟩ m s = .fault f)

/-- A word with a reserved opcode, issued or called when that is enabled, performs nothing and sets the mark REFUSED;
the run goes on (R87, R162; decision D15). Which reason a mark already set keeps is the model's choice (log 8) and is
not stated. -/
def Obligations.ReservedOpcodeIsRefused : Prop :=
  ∀ (s : State) (c : Context) (w : CommandWord) (rest : List HostMove),
    s.fault = none → issueEnabled c s = true → s.host = .issue c w :: rest ∨ s.host = .call c w :: rest →
      w.toNat / 0x10000 = 0 ∨ 8 ≤ w.toNat / 0x10000 →
        ∃ r, (s.refused = none → r = .reservedOpcode) ∧
          step s = .next { s with host := rest, refused := some r }

/-- The same for `SET` or `CFGOUT` with line code 3, in every state of configuration: the refusal comes before the
admission check (R88, R162, R169; decision D15, log 8). -/
def Obligations.ReservedLineIsRefused : Prop :=
  ∀ (s : State) (c : Context) (w : CommandWord) (rest : List HostMove),
    s.fault = none → issueEnabled c s = true → s.host = .issue c w :: rest ∨ s.host = .call c w :: rest →
      (w.toNat / 0x10000 = 6 ∧ w.toNat / 2 % 4 = 3) ∨ (w.toNat / 0x10000 = 7 ∧ w.toNat % 4 = 3) →
        ∃ r, (s.refused = none → r = .reservedLine) ∧
          step s = .next { s with host := rest, refused := some r }

/-! The order on the wire. -/

/-- `SHIFT`'s list in the closed form of R130, for all 32 places: bit `7 - i` of the byte at pulse `i`, most significant
first (R52). -/
def Obligations.ShiftSendsMostSignificantBitFirst : Prop :=
  ∀ (b : Byte), (shiftOps b).length = 32 ∧
    ∀ i : Nat, i < 8 →
      (shiftOps b)[4 * i]? = some (.lineWrite .data (b.getLsbD (7 - i))) ∧
        (shiftOps b)[4 * i + 1]? = some (.lineWrite .clock true) ∧
        (shiftOps b)[4 * i + 2]? = some .delay ∧
        (shiftOps b)[4 * i + 3]? = some (.lineWrite .clock false)

/-- `SHOW`'s list: 66 places, LATCH low at the first and high at the last alone, and at pulse `n` the bit `15 - n` of
`position ‖ segments` (R53, R80). -/
def Obligations.ShowSendsPositionThenSegments : Prop :=
  ∀ (g p : Byte), (showOps g p).length = 66 ∧
    (showOps g p)[0]? = some (.lineWrite .latch false) ∧
    (showOps g p)[65]? = some (.lineWrite .latch true) ∧
    ∀ n : Nat, n < 16 →
      (showOps g p)[4 * n + 1]? = some (.lineWrite .data ((p ++ g).getLsbD (15 - n))) ∧
        (showOps g p)[4 * n + 2]? = some (.lineWrite .clock true) ∧
        (showOps g p)[4 * n + 3]? = some .delay ∧
        (showOps g p)[4 * n + 4]? = some (.lineWrite .clock false)

/-- In the lists of `PULSE`, `SHIFT`, `SHOW` and `CLR` every rise of CLOCK is followed by the delay and the fall, and
every delay drawn is at least 2 microseconds, so the waits of a `SHIFT` come to at least 16 and those of a frame to at
least 32 microseconds; the figures are in nanoseconds (R6, R121, R122, R204; the draw is a free value, log 6). -/
def Obligations.EveryPulseIsHeldHigh : Prop :=
  (∀ n, 2000 ≤ tHigh n) ∧
    (∀ (p : Params) (i : Instr), (∃ b, i = .shift b) ∨ (∃ g q, i = .showDigit g q) ∨ i = .clr ∨ i = .pulse →
      ∀ k, (microOps p i)[k]? = some (.lineWrite .clock true) →
        (microOps p i)[k + 1]? = some .delay ∧ (microOps p i)[k + 2]? = some (.lineWrite .clock false)) ∧
    ∀ (p : Params) (n : Nat) (b g q : Byte),
      2000 ≤ waitTime n (microOps p .pulse) ∧
        16000 ≤ waitTime n (microOps p (.shift b)) ∧
        32000 ≤ waitTime n (microOps p (.showDigit g q)) ∧
        32000 ≤ waitTime n (microOps p .clr)

/-! The Pin Interface. -/

/-- `set(CLOCK, 1)` from low under a low latch: every stage moves one place away from DATA, stage 0 takes DATA's level,
nothing else changes but CLOCK and the trace; only CLOCK need be an output (R54, R110; decision D5). That the chain takes
the model's level of DATA also while DATA is no output is the model's reading, against R22 (log 9, DEDUCED, unsafe). -/
def Obligations.SetClockHighShiftsTheChain : Prop :=
  ∀ s : State, s.fault = none → s.dir.clock = .out → s.level.clock = false → s.level.latch = false →
    exec (.setLine .clock true) s =
      .next { s with
        sr := s.sr.extractLsb' 0 15 ++ BitVec.ofBool s.level.data
        level := { s.level with clock := true }
        trace := s.trace ++ [.lineWrite .clock true] }

/-- `set(LATCH, 1)` from low commits all 16 stages to the outputs in the same step, and `SR` does not change (R55). -/
def Obligations.SetLatchHighCommitsTheChain : Prop :=
  ∀ s : State, s.fault = none → s.dir.latch = .out → s.level.latch = false →
    exec (.setLine .latch true) s =
      .next { s with
        out := s.sr
        level := { s.level with latch := true }
        trace := s.trace ++ [.lineWrite .latch true] }

/-- `set` of a line that makes no rising edge of CLOCK or LATCH and does not change DATA under a high clock stores the
level and traces the write, and changes nothing else, the sink included: falls, repeated levels, DATA writes (R56, R61,
R110; decisions D6, D18). -/
def Obligations.SetWithoutAnEdgeStoresTheLevel : Prop :=
  ∀ (s : State) (l : Line) (v : Bool), s.fault = none → s.dir.get l = .out →
    (l = .data → s.level.clock = true → v = s.level.data) →
    (l ≠ .data → v = true → s.level.get l = true) →
      exec (.setLine l v) s =
        .next { s with level := s.level.set l v, trace := s.trace ++ [.lineWrite l v] }

/-- `configure_as_output(l)` in every state: that direction becomes OUT and the micro-operation is traced; levels, chain
and outputs are as before, and after all three lines, in any order, the mode is READY (R111, R23; decisions D3, D13). -/
def Obligations.CfgoutConfiguresItsLineOnly : Prop :=
  (∀ (s : State) (l : Line), s.fault = none →
      exec (.cfgout l) s = .next { s with dir := s.dir.set l .out, trace := s.trace ++ [.lineDir l] }) ∧
    ∀ (d : PerLine Dir) (a b c : Line), a ≠ b → b ≠ c → a ≠ c →
      ((d.set a .out).set b .out).set c .out = ⟨.out, .out, .out⟩

/-- The sink moves on two events alone: for every micro-operation that answers a next state, `SR` changes only at a
rising CLOCK edge, to the shifted chain, and `OUT` only at a rising LATCH edge, to `SR` (R54 to R56; decision D5). The
statement is of every DIR: which bit is shifted in while DATA is no output is the model's reading, against R22 (log 9,
DEDUCED, unsafe). -/
def Obligations.SinkMovesOnRisingEdgesOnly : Prop :=
  ∀ (site : Site) (m : MicroOp) (s t : State), perform site m s = .next t →
    (t.sr = if m = .lineWrite .clock true ∧ s.level.clock = false
      then s.sr.extractLsb' 0 15 ++ BitVec.ofBool s.level.data else s.sr) ∧
    (t.out = if m = .lineWrite .latch true ∧ s.level.latch = false then s.sr else s.out)

/-- A level is written by `LineWrite` of its line alone, a direction by `LineDir` of its line alone, and no
micro-operation touches the records, the marks, the parameters or the host's moves (R21, R22, R113). -/
def Obligations.MicroOpsWriteTheirOwnLine : Prop :=
  ∀ (site : Site) (m : MicroOp) (s t : State), perform site m s = .next t →
    (∀ l, t.level.get l = match m with
      | .lineWrite l' v => if l' = l then v else s.level.get l
      | .lineDir _ => s.level.get l
      | .delay => s.level.get l) ∧
    (∀ l, t.dir.get l = match m with
      | .lineWrite _ _ => s.dir.get l
      | .lineDir l' => if l' = l then .out else s.dir.get l
      | .delay => s.dir.get l) ∧
    t.inflMain = s.inflMain ∧ t.inflIrq = s.inflIrq ∧ t.fault = s.fault ∧ t.refused = s.refused ∧
      t.trace = s.trace ∧ t.params = s.params ∧ t.host = s.host ∧ t.caller = s.caller

/-! The step faults and the admission check. -/

/-- An engine step that would write DATA faults `DataChangeWhileClockHigh`, naming its context, operation and STEP,
exactly when CLOCK is high and the level would change; a write of the same level is no fault (R64, R161; decision
D6). -/
def Obligations.DataChangeUnderHighClockFaults : Prop :=
  ∀ (s : State) (c : Context) (r : InFlight) (v : Bool),
    activeContext s = c → s.infl c = some r → (microOps s.params r.op)[r.step]? = some (.lineWrite .data v) →
      (s.level.clock = true ∧ v ≠ s.level.data →
        engineStep s = .fault (.dataChangeWhileClockHigh ⟨c, r.op, r.step⟩)) ∧
      (s.level.clock = false ∨ v = s.level.data →
        ∃ t, engineStep s = .next t ∧ t.level.data = v ∧ t.sr = s.sr ∧ t.out = s.out)

/-- An engine step that would raise CLOCK from low faults `ShiftWhileLatchHigh`, naming its context, operation and STEP,
exactly when LATCH is high; under a low latch it shifts (R65, R161; decision D21). Which bit a `PULSE` or `SET` shifts in
while DATA is no output is the model's reading, against R22 (log 9, DEDUCED, unsafe). -/
def Obligations.ShiftUnderHighLatchFaults : Prop :=
  ∀ (s : State) (c : Context) (r : InFlight),
    activeContext s = c → s.infl c = some r →
      (microOps s.params r.op)[r.step]? = some (.lineWrite .clock true) → s.level.clock = false →
        (s.level.latch = true → engineStep s = .fault (.shiftWhileLatchHigh ⟨c, r.op, r.step⟩)) ∧
        (s.level.latch = false → ∃ t, engineStep s = .next t ∧ t.level.clock = true ∧
          t.sr = s.sr.extractLsb' 0 15 ++ BitVec.ofBool s.level.data)

/-- Which operations fault `UseBeforeInit`, and when, by the table of R154 and R161: the operation answers that fault,
naming STEP 0, exactly when a line it writes is not an output; `INIT` and `CFGOUT` never (decisions D11, D12). -/
def Obligations.UseBeforeInitTable : Prop :=
  ∀ (i : Instr) (s : State), s.fault = none →
    (exec i s = .fault (.useBeforeInit ⟨s.caller, i, 0⟩) ↔
      match i with
      | .init => False
      | .cfgout _ => False
      | .setLine l _ => s.dir.get l ≠ .out
      | .pulse => s.dir.clock ≠ .out
      | .shift _ => s.dir.data ≠ .out ∨ s.dir.clock ≠ .out
      | .showDigit _ _ => s.mode ≠ .ready
      | .clr => s.mode ≠ .ready)

/-- An operation that has been admitted never meets an unconfigured line later: every line its list writes is among
those the admission check asks for (R161; derived by the spec from R22). -/
def Obligations.AdmissionCoversEveryLineWritten : Prop :=
  ∀ (p : Params) (i : Instr) (l : Line) (v : Bool), MicroOp.lineWrite l v ∈ microOps p i → l ∈ linesNeeded i

/-- A faulted state is quiescent: no step, no operation is enabled in it, and the spec's transition leaves it as it is
(R161). -/
def Obligations.FaultedStateIsQuiescent : Prop :=
  ∀ (s : State) (f : Fault), s.fault = some f →
    step s = .fault f ∧ advance s = s ∧ ∀ i, exec i s = .fault f

/-! The Clock Pulse Primitive and the Bit Shifter. -/

/-- `PULSE` with CLOCK an output, for every entry level: from a low clock and a low latch it shifts DATA's level in and
ends with CLOCK low; from a high clock it makes no edge and the pulse is lost to the load; from a low clock under a high
latch it faults at STEP 0 (R120, R122; decisions D4, D5, D21). That the bit shifted in is the model's level of DATA also
while DATA is no output is the model's reading, against R22 (log 9, DEDUCED, unsafe). -/
def Obligations.PulseShiftsOneBit : Prop :=
  ∀ s : State, s.fault = none → s.dir.clock = .out →
    if s.level.clock = true then
      exec .pulse s = .next { s with level := { s.level with clock := false }, trace := s.trace ++ pulseOps }
    else if s.level.latch = true then
      exec .pulse s = .fault (.shiftWhileLatchHigh ⟨s.caller, .pulse, 0⟩)
    else
      exec .pulse s =
        .next { s with
          sr := s.sr.extractLsb' 0 15 ++ BitVec.ofBool s.level.data
          trace := s.trace ++ [.lineWrite .clock true, .delay, .lineWrite .clock false] }

/-- `SHIFT b` from a low clock and a low latch: the eight low stages move up and `b` stands in the upstream register; the
outputs and LATCH are untouched, CLOCK ends low, DATA at bit 0 of `b` (R130, R57; decisions D3 to D5). -/
def Obligations.ShiftLoadsTheUpstreamRegister : Prop :=
  ∀ (b : Byte) (s : State), s.fault = none → s.dir.data = .out → s.dir.clock = .out →
    s.level.clock = false → s.level.latch = false →
      exec (.shift b) s =
        .next { s with
          sr := s.sr.extractLsb' 0 8 ++ b
          level := ⟨false, false, b.getLsbD 0⟩
          trace := s.trace ++ shiftOps b }

/-- After every `SHIFT` that completes, from whatever levels: DATA is at bit 0 of the byte, CLOCK is low, and LATCH is as it
was, for `SHIFT` does not manage it; and from a low clock nothing of the answer depends on the DATA level an earlier
operation left (R131). -/
def Obligations.ShiftLeavesDataAtBitZero : Prop :=
  ∀ (b : Byte) (s t : State), exec (.shift b) s = .next t →
    t.level = ⟨s.level.latch, false, b.getLsbD 0⟩ ∧ t.out = s.out ∧
      (s.level.clock = false →
        ∀ v, exec (.shift b) { s with level := { s.level with data := v } } = .next t)

/-- `SHIFT b` at the other entry levels: under a high latch and a low clock it faults at STEP 1 with DATA written; from a
high clock it faults at STEP 0 when bit 7 differs from DATA, else it makes seven edges, or faults at the first of them,
STEP 5, when LATCH is high (R130, R132; decisions D5, D6, D21). -/
def Obligations.ShiftFromUnsafeEntryLevels : Prop :=
  ∀ (b : Byte) (s : State), s.fault = none → s.dir.data = .out → s.dir.clock = .out →
    (s.level.clock = false → s.level.latch = true →
      exec (.shift b) s = .fault (.shiftWhileLatchHigh ⟨s.caller, .shift b, 1⟩)) ∧
    (s.level.clock = true → b.getLsbD 7 ≠ s.level.data →
      exec (.shift b) s = .fault (.dataChangeWhileClockHigh ⟨s.caller, .shift b, 0⟩)) ∧
    (s.level.clock = true → b.getLsbD 7 = s.level.data → s.level.latch = true →
      exec (.shift b) s = .fault (.shiftWhileLatchHigh ⟨s.caller, .shift b, 5⟩)) ∧
    (s.level.clock = true → b.getLsbD 7 = s.level.data → s.level.latch = false →
      exec (.shift b) s =
        .next { s with
          sr := s.sr.extractLsb' 0 9 ++ b.extractLsb' 0 7
          level := ⟨false, false, b.getLsbD 0⟩
          trace := s.trace ++ shiftOps b })

/-- Sixteen chain shifts flush the chain: whatever it held, stage `15 - n` then holds the `n`-th sampled level (R57,
derived by the spec from R54). -/
def Obligations.SixteenShiftsFlushTheChain : Prop :=
  ∀ (sr : Frame) (bits : List Bool), bits.length = 16 →
    ∀ n : Nat, n < 16 → some ((bits.foldl chainShift sr).getLsbD (15 - n)) = bits[n]?

/-! The Display Driver. -/

/-- `SHOW` in READY from a low clock, whatever the latch, DATA, chain and outputs: the frame `position ‖ segments` stands
in the chain and on the outputs, all 8 bits of both as given; LATCH is high, CLOCK low, DATA at bit 0 of the segments
byte; a digit is energized exactly when its mask bit is set, and its segment outputs lit exactly where the segments bit
is 0 (R140 to R142, R32; decisions D5, D8; derived by the spec). -/
def Obligations.ShowCommitsTheFrame : Prop :=
  ∀ (g p : Byte) (s : State), s.fault = none → s.mode = .ready → s.level.clock = false →
    exec (.showDigit g p) s =
        .next { s with
          sr := p ++ g
          out := p ++ g
          level := ⟨true, false, g.getLsbD 0⟩
          trace := s.trace ++ showOps g p } ∧
      ∀ (k : Fin 4) (j : Fin 8), energized (p ++ g) k = p.getLsbD (4 + k.val) ∧
        lit (p ++ g) k j = (p.getLsbD (4 + k.val) && !g.getLsbD j.val)

/-- `SHOW` in READY from a high clock: it faults at its first DATA write when bit 7 of the position differs from DATA, else
it makes fifteen edges and commits the old stage 0 above the low 15 bits of the frame (R147 a, R193; decisions D5, D6;
derived by the spec). -/
def Obligations.ShowFromHighClockLosesABit : Prop :=
  ∀ (g p : Byte) (s : State), s.fault = none → s.mode = .ready → s.level.clock = true →
    if p.getLsbD 7 = s.level.data then
      exec (.showDigit g p) s =
        .next { s with
          sr := BitVec.ofBool (s.sr.getLsbD 0) ++ (p ++ g).extractLsb' 0 15
          out := BitVec.ofBool (s.sr.getLsbD 0) ++ (p ++ g).extractLsb' 0 15
          level := ⟨true, false, g.getLsbD 0⟩
          trace := s.trace ++ showOps g p }
    else
      exec (.showDigit g p) s = .fault (.dataChangeWhileClockHigh ⟨s.caller, .showDigit g p, 1⟩)

/-- No partial frame is ever on the outputs: after any number `k < 66` of a `SHOW`'s engine steps, from a low clock and
with nothing preempting, `OUT` is as it was and, from the first step on, LATCH is low; the 66th step makes `OUT` the new
frame and completes the operation (R143, R60; derived by the spec). -/
def Obligations.NoPartialFrameIsShown : Prop :=
  ∀ (g p : Byte) (s : State), s.level.clock = false → s.inflIrq = none → s.inflMain = some ⟨.showDigit g p, 0⟩ →
    (∀ k : Nat, k < 66 → ∃ t, engineSteps k s = .next t ∧ t.out = s.out ∧ t.inflMain = some ⟨.showDigit g p, k⟩ ∧
      (k ≠ 0 → t.level.latch = false)) ∧
    ∃ t, engineSteps 66 s = .next t ∧ t.out = p ++ g ∧ t.inflMain = none ∧ t.level.latch = true

/-- Two `SHOW` in succession are independent: the second leaves the chain, the outputs and the levels as it alone would,
so that repeating one `SHOW` changes nothing but the trace (R144; derived by the spec). -/
def Obligations.ConsecutiveFramesAreIndependent : Prop :=
  ∀ (g p g' p' : Byte) (s : State), s.fault = none → s.mode = .ready → s.level.clock = false →
    ∃ t u v, exec (.showDigit g p) s = .next t ∧ exec (.showDigit g' p') t = .next u ∧
      exec (.showDigit g' p') s = .next v ∧ t.out = p ++ g ∧ u.out = p' ++ g' ∧
      u = { v with trace := s.trace ++ showOps g p ++ showOps g' p' }

/-- A frame built by hand: in a READY state with no mark, `SHOW` answers a next state exactly when `set(LATCH, 0)`,
`SHIFT position`, `SHIFT segments`, `set(LATCH, 1)` in turn do, and it is the same state, trace included (R95). -/
def Obligations.ShowIsTheHandBuiltFrame : Prop :=
  ∀ (g p : Byte) (s t : State), s.fault = none → s.mode = .ready →
    (exec (.showDigit g p) s = .next t ↔
      andThen (exec (.setLine .latch false) s) (fun a =>
        andThen (exec (.shift p) a) fun b =>
          andThen (exec (.shift g) b) fun c => exec (.setLine .latch true) c) = .next t)

/-- `SHIFT` is `set(DATA, bit)` and `PULSE` for each bit, most significant first: the same next state, trace included, when
both its lines are outputs (R95). -/
def Obligations.ShiftIsEightSetAndPulse : Prop :=
  ∀ (b : Byte) (s t : State), s.fault = none → s.dir.data = .out → s.dir.clock = .out →
    (exec (.shift b) s = .next t ↔
      [7, 6, 5, 4, 3, 2, 1, 0].foldl
        (fun r i => andThen (andThen r (exec (.setLine .data (b.getLsbD i)))) (exec .pulse)) (.next s) = .next t)

/-- The hand-driven half frame: after `set(LATCH, 0)`, `SHIFT b`, `set(LATCH, 1)` the outputs hold the old upstream byte
above `b`, and nothing detects it (R59; derived by the spec). -/
def Obligations.HalfAFrameIsCommittedAsItStands : Prop :=
  ∀ (b : Byte) (s : State), s.fault = none → s.mode = .ready → s.level.clock = false →
    andThen (exec (.setLine .latch false) s)
        (fun a => andThen (exec (.shift b) a) fun c => exec (.setLine .latch true) c) =
      .next { s with
        sr := s.sr.extractLsb' 0 8 ++ b
        out := s.sr.extractLsb' 0 8 ++ b
        level := ⟨true, false, b.getLsbD 0⟩
        trace := s.trace ++ [.lineWrite .latch false] ++ shiftOps b ++ [.lineWrite .latch true] }

/-! Initialization and Clear. -/

/-- `INIT` in every state without a fault mark: the three directions become OUT, so the mode is READY, the three
micro-operations are traced, and nothing else changes: levels, chain and outputs are as before (R150, R153; decision
D13). -/
def Obligations.InitConfiguresAllLines : Prop :=
  ∀ s : State, s.fault = none →
    exec .init s =
        .next { s with
          dir := ⟨.out, .out, .out⟩
          trace := s.trace ++ [.lineDir .latch, .lineDir .clock, .lineDir .data] } ∧
      (s.mode = .ready →
        exec .init s =
          .next { s with trace := s.trace ++ [.lineDir .latch, .lineDir .clock, .lineDir .data] })

/-- The display after `INIT`: chain and outputs keep whatever they held at reset (R152); the levels are the reset levels
still, which rests on the spec's decisions D10 and D13 (R35, R150; log 14). -/
def Obligations.InitLeavesTheDisplayUndefined : Prop :=
  ∀ (p : Params) (sr out : Frame), ∃ t, exec .init (State.resetWith p sr out) = .next t ∧
    t.sr = sr ∧ t.out = out ∧ t.level = p.resetLevel

/-- `CLR` in READY from a low clock (from a high one: `ClrFromHighClockLosesABit`) commits `CLR_POSITION ‖ 0xFF`, for every value of that parameter, and no segment of
any digit is then lit, at any place of the display, whatever the name maps are (R151, R90, R32; decision D9). -/
def Obligations.ClrCommitsTheBlankFrame : Prop :=
  ∀ s : State, s.fault = none → s.mode = .ready → s.level.clock = false →
    ∃ t, exec .clr s = .next t ∧
      t = { s with
        sr := s.params.clrPosition ++ 0xFF#8
        out := s.params.clrPosition ++ 0xFF#8
        level := ⟨true, false, true⟩
        trace := s.trace ++ showOps 0xFF s.params.clrPosition } ∧
      (∀ k j, lit t.out k j = false) ∧
      ∀ (Place : Type) (m : SegMap) (d : DigitMap Place) (x : Place) (y : Segment), ¬ litAt m d t.out x y

/-- The two expansions of R95: `clrscr()` is `show_digit(0xFF, CLR_POSITION)` and `init()` the three
`configure_as_output`: the same next states; and the same faults at the same STEP, each naming its own operation. -/
def Obligations.ClrAndInitAreTheirExpansions : Prop :=
  (∀ s t : State, exec .clr s = .next t ↔ exec (.showDigit 0xFF s.params.clrPosition) s = .next t) ∧
    (∀ (s : State) (k : Nat), s.fault = none →
      (exec .clr s = .fault (.useBeforeInit ⟨s.caller, .clr, k⟩) ↔
        exec (.showDigit 0xFF s.params.clrPosition) s =
          .fault (.useBeforeInit ⟨s.caller, .showDigit 0xFF s.params.clrPosition, k⟩)) ∧
      (exec .clr s = .fault (.dataChangeWhileClockHigh ⟨s.caller, .clr, k⟩) ↔
        exec (.showDigit 0xFF s.params.clrPosition) s =
          .fault (.dataChangeWhileClockHigh ⟨s.caller, .showDigit 0xFF s.params.clrPosition, k⟩)) ∧
      (exec .clr s = .fault (.shiftWhileLatchHigh ⟨s.caller, .clr, k⟩) ↔
        exec (.showDigit 0xFF s.params.clrPosition) s =
          .fault (.shiftWhileLatchHigh ⟨s.caller, .showDigit 0xFF s.params.clrPosition, k⟩))) ∧
    ∀ s : State, exec .init s =
      andThen (exec (.cfgout .latch) s) fun a => andThen (exec (.cfgout .clock) a) (exec (.cfgout .data))

/-- The first frame after reset and `INIT`: its entry condition holds exactly when the reset level of CLOCK is low, for
every parameter and every content of the load (R193, R208; derived by the spec). -/
def Obligations.FirstFrameNeedsALowClock : Prop :=
  ∀ (p : Params) (sr out : Frame), ∃ t, exec .init (State.resetWith p sr out) = .next t ∧
    (FrameEntry t ↔ p.resetLevel.clock = false)

/-- The entry condition of a frame is kept by `INIT`, `SHOW` and `CLR`, while that of a direct `SHIFT` does not hold after
`SHOW` or `CLR` (R208; derived by the spec). -/
def Obligations.FrameEntryIsKept : Prop :=
  ∀ s : State, FrameEntry s →
    (∃ t, exec .init s = .next t ∧ FrameEntry t) ∧
      (∃ t, exec .clr s = .next t ∧ FrameEntry t ∧ ¬ ShiftEntry t) ∧
      ∀ g p, ∃ t, exec (.showDigit g p) s = .next t ∧ FrameEntry t ∧ ¬ ShiftEntry t

/-! Whole-machine rules. -/

/-- What an operation leaves alone: the records, the marks, the parameters and the host's moves; the directions, but for
`INIT` and `CFGOUT`; levels, chain and outputs for these two; LATCH and the outputs for `SHIFT` and `PULSE`, and DATA for
`PULSE`; the other two levels, and the sink that its line does not move, for `SET`. The trace grows by the operation's
list (R29, R110, R111, R120, R130, R140, R150, R151). -/
def Obligations.OperationFrame : Prop :=
  ∀ (i : Instr) (s t : State), exec i s = .next t →
    (t.inflMain = s.inflMain ∧ t.inflIrq = s.inflIrq ∧ t.fault = s.fault ∧ t.refused = s.refused ∧
      t.params = s.params ∧ t.host = s.host ∧ t.caller = s.caller ∧ t.trace = s.trace ++ microOps s.params i) ∧
    match i with
    | .init => t.level = s.level ∧ t.sr = s.sr ∧ t.out = s.out
    | .cfgout l => t.level = s.level ∧ t.sr = s.sr ∧ t.out = s.out ∧ ∀ l', l' ≠ l → t.dir.get l' = s.dir.get l'
    | .setLine l _ => t.dir = s.dir ∧ (∀ l', l' ≠ l → t.level.get l' = s.level.get l') ∧
        (l ≠ .clock → t.sr = s.sr) ∧ (l ≠ .latch → t.out = s.out)
    | .pulse => t.dir = s.dir ∧ t.level.latch = s.level.latch ∧ t.level.data = s.level.data ∧ t.out = s.out
    | .shift _ => t.dir = s.dir ∧ t.level.latch = s.level.latch ∧ t.out = s.out
    | .showDigit _ _ => t.dir = s.dir
    | .clr => t.dir = s.dir

/-- No step leaves READY and none un-configures a line (R155, R22). -/
def Obligations.NoStepUnconfiguresALine : Prop :=
  ∀ s t : State, step s = .next t →
    (∀ l, s.dir.get l = .out → t.dir.get l = .out) ∧ (s.mode = .ready → t.mode = .ready)

/-- What every step keeps: the parameters; a mark REFUSED once set (R33, R162); the trace as the beginning of the new one
(R34); and no step that answers a next state starts from, or makes, a fault mark (R33, R161). -/
def Obligations.StepKeepsMarksAndHistory : Prop :=
  ∀ s t : State, step s = .next t →
    t.params = s.params ∧ (s.refused ≠ none → t.refused ≠ none) ∧ s.trace <+: t.trace ∧
      s.fault = none ∧ t.fault = none

/-- The invariant is kept by every step from every state that meets it: every line ever written is an output (R37 a), an
in-flight record stands before the end of its list and its lines are outputs (R27, R161), and a host that keeps its
obligation never has two operations in flight (R166, R196). -/
def Obligations.InvariantIsKeptByEveryStep : Prop :=
  ∀ s t : State, Inv s → step s = .next t → Inv t

/-- The invariant holds at reset, for all parameters, any content of the load and any moves of the host. -/
def Obligations.InvariantHoldsAtReset : Prop :=
  ∀ (p : Params) (sr out : Frame) (moves : List HostMove), Inv { State.resetWith p sr out with host := moves }

/-- Each level is the one last written to its line, or its reset level when it was never written: every step keeps it,
and it holds at reset (R21, R34, R61). -/
def Obligations.LevelsAreTheLastWritten : Prop :=
  (∀ (p : Params) (sr out : Frame) (l : Line),
      (State.resetWith p sr out).level.get l = lastWritten l (p.resetLevel.get l) (State.resetWith p sr out).trace) ∧
    ∀ s t : State, (∀ l, s.level.get l = lastWritten l (s.params.resetLevel.get l) s.trace) → step s = .next t →
      ∀ l, t.level.get l = lastWritten l (t.params.resetLevel.get l) t.trace

/-- When an operation that pulses CLOCK completes, CLOCK is low, whatever it was at entry (R37 b, R120). -/
def Obligations.PulsingOperationsEndWithClockLow : Prop :=
  ∀ (i : Instr) (s t : State), (∃ b, i = .shift b) ∨ (∃ g q, i = .showDigit g q) ∨ i = .clr ∨ i = .pulse →
    exec i s = .next t → t.level.clock = false

/-- Every operation completes or faults: from every state that meets the invariant, with no move of the host's to come,
within 132 steps nothing is in flight or the run has faulted (R27, R203; decision D17). -/
def Obligations.EveryOperationComesToAnEnd : Prop :=
  ∀ s : State, Inv s → s.fault = none → s.host = [] →
    ∃ n, n ≤ 132 ∧ ((∃ t, stepsFrom n s = .next t ∧ Idle t) ∨ ∃ f, stepsFrom n s = .fault f)

/-- Reset: every line unconfigured and so the mode UNINITIALIZED, the levels at RESET_LEVEL, nothing in flight, no mark,
an empty trace, for every parameter and every content of the load; the block is then idle, and a step without a move of
the host's changes nothing (R35, R190, R191; decision D10). -/
def Obligations.ResetLeavesTheBlockIdle : Prop :=
  ∀ (p : Params) (sr out : Frame), ∀ s, s = State.resetWith p sr out →
    s.dir = ⟨.unconf, .unconf, .unconf⟩ ∧ s.mode = .uninitialized ∧ s.level = p.resetLevel ∧ Idle s ∧ NoMark s ∧
      s.trace = [] ∧ s.sr = sr ∧ s.out = out ∧ step s = .next s

/-! Preemption of a main-line `SHOW` (R197), the host not exclusive: MAIN issues a `SHOW`, the engine takes `k` steps, IRQ
calls another; the call move is the model's (log 3). `r = (k - 1) mod 4` is the place within a bit. Derived by the spec
from R29, R54, R55, R64, R65, R167. -/

/-- `1 ≤ k ≤ 62` and CLOCK low at the point (`r = 0` or `1`): IRQ's frame is committed intact, and MAIN faults
`ShiftWhileLatchHigh` at its next rise of CLOCK, the least step `k' ≥ k` with `(k' - 1) mod 4 = 1`; its frame is never
shown (R197; the call move, log 3). -/
def Obligations.PreemptionAtALowClock : Prop :=
  ∀ (g p g' p' : Byte) (w w' : CommandWord) (s : State) (k : Nat),
    FrameEntry s → s.params.hostExclusive = false →
    decode w = .ok (.showDigit g p) → decode w' = .ok (.showDigit g' p') →
    1 ≤ k → k ≤ 62 → (k - 1) % 4 < 2 →
    s.host = .issue .main w :: (List.replicate k .pass ++ [.call .irq w']) →
      (∃ t, stepsFrom (k + 2) s = .next t ∧ t.out = p' ++ g' ∧ t.inflMain = some ⟨.showDigit g p, k⟩ ∧
        t.inflIrq = none) ∧
      stepsFrom (k + 2 + (2 - (k - 1) % 4)) s =
        .fault (.shiftWhileLatchHigh ⟨.main, .showDigit g p, k + (1 - (k - 1) % 4)⟩)

/-- `3 ≤ k ≤ 64` and CLOCK high at the point (`r = 2` or `3`), where bit 7 of IRQ's position byte is not the bit MAIN has
just sent: IRQ's first DATA write, its STEP 1, faults `DataChangeWhileClockHigh`, and the outputs before that step are
as they were (R197; the call move, log 3). -/
def Obligations.PreemptionAtAHighClockClashes : Prop :=
  ∀ (g p g' p' : Byte) (w w' : CommandWord) (s : State) (k : Nat),
    FrameEntry s → s.params.hostExclusive = false →
    decode w = .ok (.showDigit g p) → decode w' = .ok (.showDigit g' p') →
    3 ≤ k → k ≤ 64 → 2 ≤ (k - 1) % 4 → p'.getLsbD 7 ≠ (p ++ g).getLsbD (15 - (k - 1) / 4) →
    s.host = .issue .main w :: (List.replicate k .pass ++ [.call .irq w']) →
      (∃ t, stepsFrom (k + 1) s = .next t ∧ t.out = s.out) ∧
      stepsFrom (k + 2) s = .fault (.dataChangeWhileClockHigh ⟨.irq, .showDigit g' p', 1⟩)

/-- The same place, where the two bits agree: IRQ's first rise makes no edge, and its frame is committed intact all the
same; for `k ≤ 62` MAIN then faults `ShiftWhileLatchHigh` at its next rise of CLOCK (R197; the call move, log 3). -/
def Obligations.PreemptionAtAHighClockMatches : Prop :=
  ∀ (g p g' p' : Byte) (w w' : CommandWord) (s : State) (k : Nat),
    FrameEntry s → s.params.hostExclusive = false →
    decode w = .ok (.showDigit g p) → decode w' = .ok (.showDigit g' p') →
    3 ≤ k → k ≤ 64 → 2 ≤ (k - 1) % 4 → p'.getLsbD 7 = (p ++ g).getLsbD (15 - (k - 1) / 4) →
    s.host = .issue .main w :: (List.replicate k .pass ++ [.call .irq w']) →
      (∃ t, stepsFrom (k + 2) s = .next t ∧ t.out = p' ++ g' ∧ t.sr = p' ++ g') ∧
      (k ≤ 62 → stepsFrom (k + 2 + (6 - (k - 1) % 4)) s =
        .fault (.shiftWhileLatchHigh ⟨.main, .showDigit g p, k + (5 - (k - 1) % 4)⟩))

/-- `k = 65`, all sixteen bits sent and LATCH still low, and `k = 63` or `64` where the two bits agree: there is no fault;
IRQ's frame is committed, MAIN completes, and its own frame is silently never shown (R197; the call move, log 3). -/
def Obligations.PreemptionAfterTheLastBitLosesTheFrame : Prop :=
  ∀ (g p g' p' : Byte) (w w' : CommandWord) (s : State) (k : Nat),
    FrameEntry s → s.params.hostExclusive = false →
    decode w = .ok (.showDigit g p) → decode w' = .ok (.showDigit g' p') →
    63 ≤ k → k ≤ 65 → (k = 65 ∨ p'.getLsbD 7 = g.getLsbD 0) →
    s.host = .issue .main w :: (List.replicate k .pass ++ [.call .irq w']) →
      ∃ t, stepsFrom (k + 2 + (66 - k)) s = .next t ∧ EndedWell t ∧ t.out = p' ++ g' ∧ t.sr = p' ++ g' ∧
        t.level = ⟨true, false, g'.getLsbD 0⟩

/-! Where a fault leaves the machine, `CLR` from a high clock, and the premise `Unpreempted`. -/

/-- A fault is precise. A called operation that faults is refused admission and leaves nothing changed but the mark; or it
faults at some STEP `k`, and the state it leaves is, but for the mark, the one its issue and `k` engine steps reach: every
earlier micro-operation performed in full and traced, its record at `k`, nothing of the faulting one done. A faulting step
that is no call leaves everything as it was but the mark and the delivered move (R161, R170; decision D14; the call move,
its place on the list and the caller are the model's, log 1 to log 3, log 12). -/
def Obligations.FaultIsPrecise : Prop :=
  (∀ (s : State) (c : Context) (w : CommandWord) (i : Instr) (rest : List HostMove) (f : Fault),
      s.fault = none → issueEnabled c s = true → decode w = .ok i → s.host = .call c w :: rest → step s = .fault f →
        (f = .useBeforeInit ⟨c, i, 0⟩ ∧ advance s = { s with host := rest, caller := c, fault := some f }) ∨
          ∃ k t, k < (microOps s.params i).length ∧
            (f = .dataChangeWhileClockHigh ⟨c, i, k⟩ ∨ f = .shiftWhileLatchHigh ⟨c, i, k⟩) ∧
            stepsFrom (k + 1) { s with host := .issue c w :: (List.replicate k .pass ++ rest) } = .next t ∧
            t.trace = s.trace ++ (microOps s.params i).take k ∧ t.infl c = some ⟨i, k⟩ ∧ engineStep t = .fault f ∧
            advance s = { t with fault := some f }) ∧
    ∀ (s : State) (f : Fault), s.fault = none → step s = .fault f → (∀ i t, deliver s ≠ .call i t) →
      advance s = { s with fault := some f, host := (advance s).host, caller := (advance s).caller }

/-- `CLR` in READY from a high clock: it faults at STEP 1, naming `CLR`, when bit 7 of `CLR_POSITION` differs from DATA, else
it makes fifteen edges and commits the old stage 0 above the low 15 bits of the blank frame (R147 a, R151, R193; decisions
D5, D6, D9; derived by the spec). -/
def Obligations.ClrFromHighClockLosesABit : Prop :=
  ∀ s : State, s.fault = none → s.mode = .ready → s.level.clock = true →
    if s.params.clrPosition.getLsbD 7 = s.level.data then
      exec .clr s =
        .next { s with
          sr := BitVec.ofBool (s.sr.getLsbD 0) ++ (s.params.clrPosition ++ 0xFF#8).extractLsb' 0 15
          out := BitVec.ofBool (s.sr.getLsbD 0) ++ (s.params.clrPosition ++ 0xFF#8).extractLsb' 0 15
          level := ⟨true, false, true⟩
          trace := s.trace ++ showOps 0xFF s.params.clrPosition }
    else
      exec .clr s = .fault (.dataChangeWhileClockHigh ⟨s.caller, .clr, 1⟩)

/-- `Unpreempted` holds of every run of an exclusive host. A `SHOW` or `CLR` that MAIN issues in `FrameEntry` and that runs
`Unpreempted` for its issue and 66 engine steps, whatever else the host has on its list, has then committed its frame, and
`FrameEntry` holds again (R208, R37; derived by the spec; the waiting of the host's other moves is the model's, log 1). -/
def Obligations.UnpreemptedFrameKeepsFrameEntry : Prop :=
  (∀ (n : Nat) (s : State), s.params.hostExclusive = true → Unpreempted n s) ∧
    ∀ (s : State) (w : CommandWord) (i : Instr) (rest : List HostMove),
      FrameEntry s → s.host = .issue .main w :: rest → decode w = .ok i → i = .clr ∨ (∃ g p, i = .showDigit g p) →
        Unpreempted 67 s →
          ∃ t, stepsFrom 67 s = .next t ∧ FrameEntry t ∧ (∀ g p, i = .showDigit g p → t.out = p ++ g) ∧
            (i = .clr → t.out = s.params.clrPosition ++ 0xFF#8)
end

