-- ==== Sys2Proof/Laws/State.lean ====
section
/-! SUPPORT. One lemma for each field of State under each update, so that no later proof unfolds a record update; and the
laws of a value per line. -/

namespace Sys2Proof

@[simp] theorem PerLine.get_latch {α : Type} (p : PerLine α) : p.get .latch = p.latch := rfl

@[simp] theorem PerLine.get_clock {α : Type} (p : PerLine α) : p.get .clock = p.clock := rfl

@[simp] theorem PerLine.get_data {α : Type} (p : PerLine α) : p.get .data = p.data := rfl

@[simp] theorem PerLine.set_latch {α : Type} (p : PerLine α) (v : α) : p.set .latch v = ⟨v, p.clock, p.data⟩ := rfl

@[simp] theorem PerLine.set_clock {α : Type} (p : PerLine α) (v : α) : p.set .clock v = ⟨p.latch, v, p.data⟩ := rfl

@[simp] theorem PerLine.set_data {α : Type} (p : PerLine α) (v : α) : p.set .data v = ⟨p.latch, p.clock, v⟩ := rfl

theorem PerLine.get_set {α : Type} (p : PerLine α) (l k : Line) (v : α) :
    (p.set l v).get k = if l = k then v else p.get k := by
  cases l <;> cases k <;> rfl

theorem PerLine.ext_get {α : Type} {p q : PerLine α} (h : ∀ l, p.get l = q.get l) : p = q := by
  obtain ⟨p1, p2, p3⟩ := p
  obtain ⟨q1, q2, q3⟩ := q
  have h1 : p1 = q1 := h .latch
  have h2 : p2 = q2 := h .clock
  have h3 : p3 = q3 := h .data
  rw [h1, h2, h3]

end Sys2Proof

namespace Sys2Proof.Machine

@[simp] theorem State.setLevel_level (s : State) (l : Line) (v : Bool) : (s.setLevel l v).level = s.level.set l v := rfl

@[simp] theorem State.setLevel_dir (s : State) (l : Line) (v : Bool) : (s.setLevel l v).dir = s.dir := rfl

@[simp] theorem State.setLevel_inflMain (s : State) (l : Line) (v : Bool) : (s.setLevel l v).inflMain = s.inflMain := rfl

@[simp] theorem State.setLevel_inflIrq (s : State) (l : Line) (v : Bool) : (s.setLevel l v).inflIrq = s.inflIrq := rfl

@[simp] theorem State.setLevel_sr (s : State) (l : Line) (v : Bool) : (s.setLevel l v).sr = s.sr := rfl

@[simp] theorem State.setLevel_out (s : State) (l : Line) (v : Bool) : (s.setLevel l v).out = s.out := rfl

@[simp] theorem State.setLevel_fault (s : State) (l : Line) (v : Bool) : (s.setLevel l v).fault = s.fault := rfl

@[simp] theorem State.setLevel_refused (s : State) (l : Line) (v : Bool) : (s.setLevel l v).refused = s.refused := rfl

@[simp] theorem State.setLevel_trace (s : State) (l : Line) (v : Bool) : (s.setLevel l v).trace = s.trace := rfl

@[simp] theorem State.setLevel_params (s : State) (l : Line) (v : Bool) : (s.setLevel l v).params = s.params := rfl

@[simp] theorem State.setLevel_host (s : State) (l : Line) (v : Bool) : (s.setLevel l v).host = s.host := rfl

@[simp] theorem State.setLevel_caller (s : State) (l : Line) (v : Bool) : (s.setLevel l v).caller = s.caller := rfl

@[simp] theorem State.configure_level (s : State) (l : Line) : (s.configure l).level = s.level := rfl

@[simp] theorem State.configure_dir (s : State) (l : Line) : (s.configure l).dir = s.dir.set l .out := rfl

@[simp] theorem State.configure_inflMain (s : State) (l : Line) : (s.configure l).inflMain = s.inflMain := rfl

@[simp] theorem State.configure_inflIrq (s : State) (l : Line) : (s.configure l).inflIrq = s.inflIrq := rfl

@[simp] theorem State.configure_sr (s : State) (l : Line) : (s.configure l).sr = s.sr := rfl

@[simp] theorem State.configure_out (s : State) (l : Line) : (s.configure l).out = s.out := rfl

@[simp] theorem State.configure_fault (s : State) (l : Line) : (s.configure l).fault = s.fault := rfl

@[simp] theorem State.configure_refused (s : State) (l : Line) : (s.configure l).refused = s.refused := rfl

@[simp] theorem State.configure_trace (s : State) (l : Line) : (s.configure l).trace = s.trace := rfl

@[simp] theorem State.configure_params (s : State) (l : Line) : (s.configure l).params = s.params := rfl

@[simp] theorem State.configure_host (s : State) (l : Line) : (s.configure l).host = s.host := rfl

@[simp] theorem State.configure_caller (s : State) (l : Line) : (s.configure l).caller = s.caller := rfl

@[simp] theorem State.record_level (s : State) (m : MicroOp) : (s.record m).level = s.level := rfl

@[simp] theorem State.record_dir (s : State) (m : MicroOp) : (s.record m).dir = s.dir := rfl

@[simp] theorem State.record_inflMain (s : State) (m : MicroOp) : (s.record m).inflMain = s.inflMain := rfl

@[simp] theorem State.record_inflIrq (s : State) (m : MicroOp) : (s.record m).inflIrq = s.inflIrq := rfl

@[simp] theorem State.record_sr (s : State) (m : MicroOp) : (s.record m).sr = s.sr := rfl

@[simp] theorem State.record_out (s : State) (m : MicroOp) : (s.record m).out = s.out := rfl

@[simp] theorem State.record_fault (s : State) (m : MicroOp) : (s.record m).fault = s.fault := rfl

@[simp] theorem State.record_refused (s : State) (m : MicroOp) : (s.record m).refused = s.refused := rfl

@[simp] theorem State.record_trace (s : State) (m : MicroOp) : (s.record m).trace = s.trace ++ [m] := rfl

@[simp] theorem State.record_params (s : State) (m : MicroOp) : (s.record m).params = s.params := rfl

@[simp] theorem State.record_host (s : State) (m : MicroOp) : (s.record m).host = s.host := rfl

@[simp] theorem State.record_caller (s : State) (m : MicroOp) : (s.record m).caller = s.caller := rfl

@[simp] theorem State.refuse_level (s : State) (r : DecodeReject) : (s.refuse r).level = s.level := rfl

@[simp] theorem State.refuse_dir (s : State) (r : DecodeReject) : (s.refuse r).dir = s.dir := rfl

@[simp] theorem State.refuse_inflMain (s : State) (r : DecodeReject) : (s.refuse r).inflMain = s.inflMain := rfl

@[simp] theorem State.refuse_inflIrq (s : State) (r : DecodeReject) : (s.refuse r).inflIrq = s.inflIrq := rfl

@[simp] theorem State.refuse_sr (s : State) (r : DecodeReject) : (s.refuse r).sr = s.sr := rfl

@[simp] theorem State.refuse_out (s : State) (r : DecodeReject) : (s.refuse r).out = s.out := rfl

@[simp] theorem State.refuse_fault (s : State) (r : DecodeReject) : (s.refuse r).fault = s.fault := rfl

@[simp] theorem State.refuse_refused (s : State) (r : DecodeReject) : (s.refuse r).refused = some (s.refused.getD r) := rfl

@[simp] theorem State.refuse_trace (s : State) (r : DecodeReject) : (s.refuse r).trace = s.trace := rfl

@[simp] theorem State.refuse_params (s : State) (r : DecodeReject) : (s.refuse r).params = s.params := rfl

@[simp] theorem State.refuse_host (s : State) (r : DecodeReject) : (s.refuse r).host = s.host := rfl

@[simp] theorem State.refuse_caller (s : State) (r : DecodeReject) : (s.refuse r).caller = s.caller := rfl

@[simp] theorem State.halt_level (s : State) (f : Fault) : (s.halt f).level = s.level := rfl

@[simp] theorem State.halt_dir (s : State) (f : Fault) : (s.halt f).dir = s.dir := rfl

@[simp] theorem State.halt_inflMain (s : State) (f : Fault) : (s.halt f).inflMain = s.inflMain := rfl

@[simp] theorem State.halt_inflIrq (s : State) (f : Fault) : (s.halt f).inflIrq = s.inflIrq := rfl

@[simp] theorem State.halt_sr (s : State) (f : Fault) : (s.halt f).sr = s.sr := rfl

@[simp] theorem State.halt_out (s : State) (f : Fault) : (s.halt f).out = s.out := rfl

@[simp] theorem State.halt_fault (s : State) (f : Fault) : (s.halt f).fault = some f := rfl

@[simp] theorem State.halt_refused (s : State) (f : Fault) : (s.halt f).refused = s.refused := rfl

@[simp] theorem State.halt_trace (s : State) (f : Fault) : (s.halt f).trace = s.trace := rfl

@[simp] theorem State.halt_params (s : State) (f : Fault) : (s.halt f).params = s.params := rfl

@[simp] theorem State.halt_host (s : State) (f : Fault) : (s.halt f).host = s.host := rfl

@[simp] theorem State.halt_caller (s : State) (f : Fault) : (s.halt f).caller = s.caller := rfl

@[simp] theorem State.setInfl_level (s : State) (c : Context) (r : Option InFlight) : (s.setInfl c r).level = s.level := by
  cases c <;> rfl

@[simp] theorem State.setInfl_dir (s : State) (c : Context) (r : Option InFlight) : (s.setInfl c r).dir = s.dir := by
  cases c <;> rfl

@[simp] theorem State.setInfl_sr (s : State) (c : Context) (r : Option InFlight) : (s.setInfl c r).sr = s.sr := by
  cases c <;> rfl

@[simp] theorem State.setInfl_out (s : State) (c : Context) (r : Option InFlight) : (s.setInfl c r).out = s.out := by
  cases c <;> rfl

@[simp] theorem State.setInfl_fault (s : State) (c : Context) (r : Option InFlight) : (s.setInfl c r).fault = s.fault := by
  cases c <;> rfl

@[simp] theorem State.setInfl_refused (s : State) (c : Context) (r : Option InFlight) : (s.setInfl c r).refused = s.refused := by
  cases c <;> rfl

@[simp] theorem State.setInfl_trace (s : State) (c : Context) (r : Option InFlight) : (s.setInfl c r).trace = s.trace := by
  cases c <;> rfl

@[simp] theorem State.setInfl_params (s : State) (c : Context) (r : Option InFlight) : (s.setInfl c r).params = s.params := by
  cases c <;> rfl

@[simp] theorem State.setInfl_host (s : State) (c : Context) (r : Option InFlight) : (s.setInfl c r).host = s.host := by
  cases c <;> rfl

@[simp] theorem State.setInfl_caller (s : State) (c : Context) (r : Option InFlight) : (s.setInfl c r).caller = s.caller := by
  cases c <;> rfl

@[simp] theorem State.setInfl_main_inflMain (s : State) (r : Option InFlight) : (s.setInfl .main r).inflMain = r := rfl

@[simp] theorem State.setInfl_main_inflIrq (s : State) (r : Option InFlight) :
    (s.setInfl .main r).inflIrq = s.inflIrq := rfl

@[simp] theorem State.setInfl_irq_inflMain (s : State) (r : Option InFlight) :
    (s.setInfl .irq r).inflMain = s.inflMain := rfl

@[simp] theorem State.setInfl_irq_inflIrq (s : State) (r : Option InFlight) : (s.setInfl .irq r).inflIrq = r := rfl

@[simp] theorem State.infl_main (s : State) : s.infl .main = s.inflMain := rfl

@[simp] theorem State.infl_irq (s : State) : s.infl .irq = s.inflIrq := rfl

/-- A record is stored where it is read. -/
@[simp] theorem State.infl_setInfl (s : State) (c : Context) (r : Option InFlight) : (s.setInfl c r).infl c = r := by
  cases c <;> rfl

/-- `READY` is the three directions being outputs (R23). -/
theorem State.mode_eq_ready (s : State) :
    s.mode = .ready ↔ s.dir.latch = .out ∧ s.dir.clock = .out ∧ s.dir.data = .out := by
  unfold State.mode
  split <;> simp_all

end Sys2Proof.Machine
end

