-- ==== Sys2Proof/Laws/Words.lean ====
section
/-! SUPPORT. The bits of the words the model builds: two bytes as a frame, the chain shift, the command word. Two words of
one width are equal when their bits are; these lemmas say each bit. -/

namespace Sys2Proof.Machine

/-- Bit `i` of `a ‖ b` (R8). -/
theorem getLsbD_twoBytes (a b : Byte) (i : Nat) :
    BitVec.getLsbD (w := 16) (a ++ b) i = if i < 8 then b.getLsbD i else a.getLsbD (i - 8) := by
  have h : BitVec.getLsbD (w := 8 + 8) (a ++ b) i = _ := BitVec.getLsbD_append
  rw [h]

/-- Stage `i` of the shifted chain: stage 0 the level taken in, every other stage the one below it before (R54). -/
theorem getLsbD_chainShift (sr : Frame) (d : Bool) (i : Nat) (hi : i < 16) :
    (chainShift sr d).getLsbD i = if i = 0 then d else sr.getLsbD (i - 1) := by
  unfold chainShift
  rw [BitVec.getLsbD_concat]
  split
  · rfl
  · simp only [BitVec.getLsbD_extractLsb', Nat.zero_add]
    have : i - 1 < 15 := by omega
    simp [this]

/-- The chain shift as the spec writes it, `SR[14:0] ‖ d` (R54). -/
theorem chainShift_eq_append (sr : Frame) (d : Bool) :
    chainShift sr d = sr.extractLsb' 0 15 ++ BitVec.ofBool d := by
  unfold chainShift
  exact (BitVec.append_ofBool _ _).symm

/-- Two frames with the same sixteen bits are equal. -/
theorem frame_eq {a b : Frame} (h : ∀ i, i < 16 → a.getLsbD i = b.getLsbD i) : a = b :=
  BitVec.eq_of_getLsbD_eq h

/-- Eight shifts of a byte's bits, most significant first, leave the old upstream byte above it (R57). -/
theorem foldl_chainShift_byte (sr : Frame) (b : Byte) :
    (bitsMsbFirst b).foldl chainShift sr = sr.extractLsb' 0 8 ++ b := by
  apply frame_eq
  intro i hi
  rw [getLsbD_twoBytes]
  simp only [bitsMsbFirst, List.foldl_cons, List.foldl_nil]
  interval_cases i <;> simp (disch := omega) only [getLsbD_chainShift, BitVec.getLsbD_extractLsb'] <;> simp

/-- Sixteen shifts of two bytes leave the two bytes, whatever the chain held (R57). -/
theorem foldl_chainShift_frame (sr : Frame) (a b : Byte) :
    (bitsMsbFirst b).foldl chainShift ((bitsMsbFirst a).foldl chainShift sr) = a ++ b := by
  rw [foldl_chainShift_byte, foldl_chainShift_byte]
  apply frame_eq
  intro i hi
  rw [getLsbD_twoBytes, getLsbD_twoBytes]
  split
  · rfl
  · rw [BitVec.getLsbD_extractLsb', Nat.zero_add, getLsbD_twoBytes]
    have h1 : i - 8 < 8 := by omega
    simp [h1]

/-- Bit `i` of a command word's three fields (R84). -/
theorem getLsbD_commandWord (op : BitVec 4) (a b : Byte) (i : Nat) :
    (commandWord op a b).getLsbD i =
      if i < 8 then b.getLsbD i else if i < 16 then a.getLsbD (i - 8) else op.getLsbD (i - 16) := by
  have h : BitVec.getLsbD (w := 4 + 8 + 8) (op ++ a ++ b) i = _ := BitVec.getLsbD_append
  unfold commandWord
  rw [h, BitVec.getLsbD_append]
  by_cases h1 : i < 8
  · simp [h1]
  · by_cases h2 : i < 16
    · have : i - 8 < 8 := by omega
      simp [h1, h2, this]
    · have : ¬ i - 8 < 8 := by omega
      have e : i - 8 - 8 = i - 16 := by omega
      simp [h1, h2, this, e]

/-- The opcode field of a command word (R84). -/
theorem opField_commandWord (op : BitVec 4) (a b : Byte) : opField (commandWord op a b) = op := by
  apply BitVec.eq_of_getLsbD_eq
  intro i hi
  have h1 : ¬ 16 + i < 8 := by omega
  have h2 : ¬ 16 + i < 16 := by omega
  simp [opField, getLsbD_commandWord, hi, h1, h2]

/-- The field `a` of a command word (R84). -/
theorem aField_commandWord (op : BitVec 4) (a b : Byte) : aField (commandWord op a b) = a := by
  apply BitVec.eq_of_getLsbD_eq
  intro i hi
  have h1 : ¬ 8 + i < 8 := by omega
  have h2 : 8 + i < 16 := by omega
  simp [aField, getLsbD_commandWord, hi, h1, h2]

/-- The field `b` of a command word (R84). -/
theorem bField_commandWord (op : BitVec 4) (a b : Byte) : bField (commandWord op a b) = b := by
  apply BitVec.eq_of_getLsbD_eq
  intro i hi
  simp [bField, getLsbD_commandWord, hi]

end Sys2Proof.Machine
end

