-- ==== Sys2Proof/Laws/Ops.lean ====
section
/-! SUPPORT. One lemma for each shared operation: what it can do, so that later proofs cite it and do not unfold it. -/

namespace Sys2Proof.Machine

@[simp] theorem andThen_next (s : State) (f : State → Result) : andThen (.next s) f = f s := rfl

@[simp] theorem andThen_fault (x : Fault) (f : State → Result) : andThen (.fault x) f = .fault x := rfl

@[simp] theorem andThen_refused (x : Refusal) (f : State → Result) : andThen (.refused x) f = .refused x := rfl

theorem andThen_eq_next {r : Result} {f : State → Result} {t : State} :
    andThen r f = .next t ↔ ∃ u, r = .next u ∧ f u = .next t := by
  cases r <;> simp [andThen]

theorem andThen_assoc (r : Result) (f g : State → Result) :
    andThen (andThen r f) g = andThen r fun s => andThen (f s) g := by
  cases r <;> rfl

/-- A line write that answers a next state stores the level and touches nothing but `LEVEL`, `SR` and `OUT`; these two
by the chain shift and the latch commit alone (R54 to R56, R110). -/
theorem lineWrite_next {site : Site} {l : Line} {v : Bool} {s t : State} (h : lineWrite site l v s = .next t) :
    t = { s with
      level := s.level.set l v
      sr := if l = .clock ∧ v = true ∧ s.level.clock = false then chainShift s.sr s.level.data else s.sr
      out := if l = .latch ∧ v = true ∧ s.level.latch = false then s.sr else s.out } := by
  cases l <;> cases v <;> simp only [lineWrite] at h <;> split at h <;>
    first
    | (split at h <;> cases h <;> simp_all [State.setLevel])
    | (cases h <;> simp_all [State.setLevel])

/-- The faults of a line write: the two of R64 and R65, each under its own condition. -/
theorem lineWrite_fault {site : Site} {l : Line} {v : Bool} {s : State} {f : Fault}
    (h : lineWrite site l v s = .fault f) :
    (l = .data ∧ s.level.clock = true ∧ v ≠ s.level.data ∧ f = .dataChangeWhileClockHigh site) ∨
      (l = .clock ∧ v = true ∧ s.level.clock = false ∧ s.level.latch = true ∧ f = .shiftWhileLatchHigh site) := by
  cases l <;> simp only [lineWrite] at h
  · split at h <;> cases h
  · split at h
    · split at h <;> cases h
      simp_all
    · cases h
  · split at h <;> cases h
    simp_all

theorem lineWrite_not_refused {site : Site} {l : Line} {v : Bool} {s : State} {x : Refusal} :
    lineWrite site l v s ≠ .refused x := by
  cases l <;> simp only [lineWrite] <;> split <;> first | (split <;> simp) | simp

/-- No micro-operation writes the in-flight records, the marks, the trace, the parameters or the host's moves (R29);
a line once an output stays one (R22). -/
theorem perform_frame {site : Site} {m : MicroOp} {s t : State} (h : perform site m s = .next t) :
    t.inflMain = s.inflMain ∧ t.inflIrq = s.inflIrq ∧ t.fault = s.fault ∧ t.refused = s.refused ∧
      t.trace = s.trace ∧ t.params = s.params ∧ t.host = s.host ∧ t.caller = s.caller ∧
      ∀ l, s.dir.get l = .out → t.dir.get l = .out := by
  cases m with
  | lineWrite l v =>
    have := lineWrite_next h
    subst this
    simp
  | lineDir l =>
    cases h
    refine ⟨rfl, rfl, rfl, rfl, rfl, rfl, rfl, rfl, fun k hk => ?_⟩
    cases l <;> cases k <;> simp_all
  | delay =>
    cases h
    simp

/-- A performed micro-operation is appended to the trace once, whatever it changed (R29, R61). -/
theorem performTraced_next {site : Site} {m : MicroOp} {s t : State} :
    performTraced site m s = .next t ↔ ∃ u, perform site m s = .next u ∧ t = u.record m := by
  unfold performTraced
  rw [andThen_eq_next]
  simp only [Host.Outcome.next.injEq, eq_comm]

@[simp] theorem runOps_nil (c : Context) (i : Instr) (k : Nat) (s : State) : runOps c i k [] s = .next s := rfl

theorem runOps_cons (c : Context) (i : Instr) (k : Nat) (m : MicroOp) (ms : List MicroOp) (s : State) :
    runOps c i k (m :: ms) s = andThen (performTraced ⟨c, i, k⟩ m s) (runOps c i (k + 1) ms) := rfl

/-- A list in two parts runs as its parts one after the other. -/
theorem runOps_append (c : Context) (i : Instr) (ms ns : List MicroOp) (k : Nat) (s : State) :
    runOps c i k (ms ++ ns) s = andThen (runOps c i k ms s) (runOps c i (k + ms.length) ns) := by
  induction ms generalizing k s with
  | nil => simp
  | cons m ms ih =>
    simp only [List.cons_append, runOps_cons, andThen_assoc, List.length_cons]
    have : k + 1 + ms.length = k + (ms.length + 1) := by omega
    congr 1
    funext u
    rw [ih, this]

/-- A list that runs to its end leaves the frame of every micro-operation and has put the list on the trace. -/
theorem runOps_frame {c : Context} {i : Instr} {k : Nat} {ms : List MicroOp} {s t : State}
    (h : runOps c i k ms s = .next t) :
    t.inflMain = s.inflMain ∧ t.inflIrq = s.inflIrq ∧ t.fault = s.fault ∧ t.refused = s.refused ∧
      t.trace = s.trace ++ ms ∧ t.params = s.params ∧ t.host = s.host ∧ t.caller = s.caller ∧
      ∀ l, s.dir.get l = .out → t.dir.get l = .out := by
  induction ms generalizing k s with
  | nil => cases h; simp
  | cons m ms ih =>
    rw [runOps_cons, andThen_eq_next] at h
    obtain ⟨u, hu, ht⟩ := h
    obtain ⟨v, hv, rfl⟩ := performTraced_next.mp hu
    obtain ⟨a1, a2, a3, a4, a5, a6, a7, a8, a9⟩ := perform_frame hv
    obtain ⟨b1, b2, b3, b4, b5, b6, b7, b8, b9⟩ := ih ht
    exact ⟨b1.trans a1, b2.trans a2, b3.trans a3, b4.trans a4, by rw [b5, State.record_trace, a5]; simp, b6.trans a6,
      b7.trans a7, b8.trans a8, fun l hl => b9 l (a9 l hl)⟩

/-- A list that faults has run in full up to the micro-operation that faults, and `faultPoint` is the state there with
the record at it (R170). -/
theorem runOps_fault {c : Context} {i : Instr} {k : Nat} {ms : List MicroOp} {s : State} {f : Fault}
    (h : runOps c i k ms s = .fault f) :
    ∃ j m u, ms[j]? = some m ∧ runOps c i k (ms.take j) s = .next u ∧ perform ⟨c, i, k + j⟩ m u = .fault f ∧
      faultPoint c i k ms s = u.setInfl c (some ⟨i, k + j⟩) := by
  induction ms generalizing k s with
  | nil => cases h
  | cons m ms ih =>
    rw [runOps_cons] at h
    cases hp : performTraced ⟨c, i, k⟩ m s with
    | next t =>
      rw [hp, andThen_next] at h
      obtain ⟨j, m', u, hj, hu, hf, hs⟩ := ih h
      have e : k + 1 + j = k + (j + 1) := by omega
      rw [e] at hf hs
      exact ⟨j + 1, m', u, by simpa using hj, by simp [runOps_cons, hp, hu], hf, by simp [faultPoint, hp, hs]⟩
    | fault x =>
      rw [hp, andThen_fault] at h
      cases h
      refine ⟨0, m, s, rfl, rfl, ?_, by simp [faultPoint, hp]⟩
      unfold performTraced at hp
      cases hq : perform ⟨c, i, k⟩ m s <;> simp_all [andThen]
    | refused x => rw [hp, andThen_refused] at h; cases h

/-- What a whole operation can answer: the fault mark's, `UseBeforeInit`, or what its list answers (R161, R166). -/
theorem runOperation_cases (i : Instr) (lines : List Line) (ops : List MicroOp) (s : State) :
    (∃ f, s.fault = some f ∧ runOperation i lines ops s = .fault f) ∨
      (s.fault = none ∧ linesConfigured lines s = false ∧
        runOperation i lines ops s = .fault (.useBeforeInit ⟨s.caller, i, 0⟩)) ∨
      (s.fault = none ∧ linesConfigured lines s = true ∧
        runOperation i lines ops s = runOps s.caller i 0 ops s) := by
  unfold runOperation
  cases hf : s.fault with
  | some f => exact .inl ⟨f, rfl, rfl⟩
  | none =>
    cases hl : linesConfigured lines s with
    | false => exact .inr (.inl ⟨rfl, rfl, by simp⟩)
    | true => exact .inr (.inr ⟨rfl, rfl, by simp⟩)

/-- Every operation is the shared one, on its own lines and list. -/
theorem exec_eq_runOperation (i : Instr) (s : State) :
    exec i s = runOperation i (linesNeeded i) (microOps s.params i) s := by
  cases i <;> rfl

/-- The delivery of a move changes only the list of moves and the caller. -/
theorem engineTurn_cases (s : State) :
    (s.idle = true ∧ engineTurn s = .idle s) ∨ (s.idle = false ∧ engineTurn s = .engine s) := by
  unfold engineTurn
  cases h : s.idle <;> simp

/-- What an engine step that answers a next state has done: nothing, with nothing in flight; removed a record at its end;
or performed the micro-operation the active record stands at, traced it and moved the record on (R27, R29, R167). -/
theorem engineStep_next {s t : State} (h : engineStep s = .next t) :
    (s.infl (activeContext s) = none ∧ t = s) ∨
      (∃ r, s.infl (activeContext s) = some r ∧ (microOps s.params r.op)[r.step]? = none ∧
        t = s.setInfl (activeContext s) none) ∨
      ∃ r m u, s.infl (activeContext s) = some r ∧ (microOps s.params r.op)[r.step]? = some m ∧
        perform ⟨activeContext s, r.op, r.step⟩ m s = .next u ∧
        t = (u.record m).setInfl (activeContext s) (nextRecord s.params r) := by
  unfold engineStep at h
  dsimp only at h
  split at h
  next hi => cases h; exact .inl ⟨hi, rfl⟩
  next r hi =>
    split at h
    next hm => cases h; exact .inr (.inl ⟨r, hi, hm, rfl⟩)
    next m hm =>
      rw [andThen_eq_next] at h
      obtain ⟨v, hv, ht⟩ := h
      obtain ⟨u, hu, rfl⟩ := performTraced_next.mp hv
      cases ht
      exact .inr (.inr ⟨r, m, u, hi, hm, hu, rfl⟩)

/-- Without moves of the host's nothing is delivered to IRQ, so every run is unpreempted (R208). -/
theorem unpreempted_of_no_moves (n : Nat) {s : State} (h : s.host = []) : Unpreempted n s := by
  induction n generalizing s with
  | zero => trivial
  | succ n ih =>
    have hd : deliver s = engineTurn s := by simp [deliver, h]
    refine ⟨fun _ => ?_, ?_⟩
    · rcases engineTurn_cases s with ⟨_, e⟩ | ⟨_, e⟩ <;> simp [irqDelivered, hd, e]
    · cases hs : step s with
      | next t =>
        refine ih ?_
        unfold step at hs
        split at hs
        · cases hs
        · rcases engineTurn_cases s with ⟨_, e⟩ | ⟨_, e⟩ <;> simp only [hd, e] at hs
          · cases hs; exact h
          · rcases engineStep_next hs with ⟨_, rfl⟩ | ⟨_, _, _, rfl⟩ | ⟨_, m, u, _, _, hu, rfl⟩
            · exact h
            · simp [h]
            · simp [(perform_frame hu).2.2.2.2.2.2.1, h]
      | fault _ => trivial
      | refused _ => trivial

/-- One bit sent with CLOCK and LATCH low: DATA takes it, the chain takes it in, CLOCK ends low (R130, R54). -/
theorem runOps_bitOps (c : Context) (i : Instr) (k : Nat) (v : Bool) (s : State) (hc : s.level.clock = false)
    (hl : s.level.latch = false) :
    runOps c i k (bitOps v) s =
      .next { s with
        level := ⟨false, false, v⟩
        sr := chainShift s.sr v
        trace := s.trace ++ bitOps v } := by
  obtain ⟨⟨a, b, d⟩, dir, im, iq, sr, out, f, r, tr, p, h, cl⟩ := s
  simp only at hc hl
  subst hc hl
  simp [bitOps, pulseOps, runOps, performTraced, perform, lineWrite, State.setLevel, State.record]

/-- Any bits sent with CLOCK and LATCH low: the chain takes them in one after the other, DATA ends at the last (R57). -/
theorem runOps_bits (c : Context) (i : Instr) (bits : List Bool) (k : Nat) (s : State) (hc : s.level.clock = false)
    (hl : s.level.latch = false) :
    runOps c i k (bits.flatMap bitOps) s =
      .next { s with
        level := ⟨false, false, bits.getLastD s.level.data⟩
        sr := bits.foldl chainShift s.sr
        trace := s.trace ++ bits.flatMap bitOps } := by
  induction bits generalizing k s with
  | nil =>
    obtain ⟨⟨a, b, d⟩, dir, im, iq, sr, out, f, r, tr, p, h, cl⟩ := s
    simp only at hc hl
    subst hc hl
    simp
  | cons v bits ih =>
    rw [List.flatMap_cons, runOps_append, runOps_bitOps c i k v s hc hl, andThen_next, ih _ _ rfl rfl]
    simp only [List.foldl_cons, List.append_assoc, List.getLastD_cons]

/-- A byte sent with CLOCK and LATCH low (R130, R57). -/
theorem runOps_shiftOps (c : Context) (i : Instr) (k : Nat) (b : Byte) (s : State) (hc : s.level.clock = false)
    (hl : s.level.latch = false) :
    runOps c i k (shiftOps b) s =
      .next { s with
        sr := s.sr.extractLsb' 0 8 ++ b
        level := ⟨false, false, b.getLsbD 0⟩
        trace := s.trace ++ shiftOps b } := by
  unfold shiftOps
  rw [runOps_bits c i _ k s hc hl, foldl_chainShift_byte]
  rfl

/-- LATCH driven low, from any level (R56). -/
theorem runOps_latchLow (c : Context) (i : Instr) (k : Nat) (s : State) :
    runOps c i k [.lineWrite .latch false] s =
      .next { s with
        level := { s.level with latch := false }
        trace := s.trace ++ [.lineWrite .latch false] } := by
  simp [runOps, performTraced, perform, lineWrite, State.setLevel, State.record]

/-- LATCH driven high from low: the commit (R55). -/
theorem runOps_latchHigh (c : Context) (i : Instr) (k : Nat) (s : State) (hl : s.level.latch = false) :
    runOps c i k [.lineWrite .latch true] s =
      .next { s with
        out := s.sr
        level := { s.level with latch := true }
        trace := s.trace ++ [.lineWrite .latch true] } := by
  simp [runOps, performTraced, perform, lineWrite, State.setLevel, State.record, hl]

/-- In READY every admission check passes (R161, R23). -/
theorem linesConfigured_of_ready {s : State} (h : s.mode = .ready) (lines : List Line) :
    linesConfigured lines s = true := by
  obtain ⟨h1, h2, h3⟩ := (State.mode_eq_ready s).mp h
  unfold linesConfigured
  rw [List.all_eq_true]
  intro l _
  cases l <;> simp [h1, h2, h3]

/-- An admitted operation is its list run from STEP 0 (R166). -/
theorem exec_eq_runOps (i : Instr) (s : State) (hf : s.fault = none)
    (hl : linesConfigured (linesNeeded i) s = true) :
    exec i s = runOps s.caller i 0 (microOps s.params i) s := by
  rw [exec_eq_runOperation]
  simp [runOperation, hf, hl]

/-- What an operation that answers a next state has passed: no fault mark, the admission check, its whole list. -/
theorem exec_next {i : Instr} {s t : State} (h : exec i s = .next t) :
    s.fault = none ∧ linesConfigured (linesNeeded i) s = true ∧
      runOps s.caller i 0 (microOps s.params i) s = .next t := by
  rw [exec_eq_runOperation] at h
  rcases runOperation_cases i (linesNeeded i) (microOps s.params i) s with ⟨f, _, e⟩ | ⟨_, _, e⟩ | ⟨hf, hl, e⟩
  · rw [e] at h; cases h
  · rw [e] at h; cases h
  · exact ⟨hf, hl, e ▸ h⟩

end Sys2Proof.Machine
end

