-- ==== Sys2Proof/Laws/PerInstr.lean ====
section
/-! SUPPORT. Statements for all operations, one lemma a constructor. The family here: the encoder's word names an
operation and is canonical, every ignored bit 0 (R85, R86). -/

namespace Sys2Proof.Laws.EncodesCanonically

/-- The word of `i` names an operation and has every ignored bit 0. -/
def Statement (i : Instr) : Prop := wordWellFormed (encode i) = true ∧ wordCanonical (encode i) = true

/-- Two bytes over a fixed opcode as a number. -/
theorem toNat_commandWord (op : BitVec 4) (a b : Byte) :
    (commandWord op a b).toNat = op.toNat * 0x10000 + a.toNat * 0x100 + b.toNat := by
  have ha := a.isLt
  have hb := b.isLt
  unfold commandWord
  rw [BitVec.toNat_append, BitVec.toNat_append, ← Nat.shiftLeft_add_eq_or_of_lt (by omega),
    ← Nat.shiftLeft_add_eq_or_of_lt (by omega), Nat.shiftLeft_eq, Nat.shiftLeft_eq]
  omega

theorem init : Statement .init := ⟨by decide, by decide⟩

theorem showDigit (segments position : Byte) : Statement (.showDigit segments position) := by
  have h : (encode (.showDigit segments position)).toNat = 2 * 0x10000 + position.toNat * 0x100 + segments.toNat :=
    toNat_commandWord 2 position segments
  have hs := segments.isLt
  have hp := position.isLt
  have hop : (encode (.showDigit segments position)).toNat / 0x10000 = 2 := by omega
  constructor
  · simp only [wordWellFormed, lineCodeAssigned, hop, opcodeAssigned, Bool.and_true, Bool.and_eq_true,
      decide_eq_true_eq]
    omega
  · simp only [wordCanonical, hop, usedBits, beq_iff_eq]
    exact BitVec.and_allOnes

theorem clr : Statement .clr := ⟨by decide, by decide⟩

theorem shift (byte : Byte) : Statement (.shift byte) := by
  have h : (encode (.shift byte)).toNat = 4 * 0x10000 + 0 * 0x100 + byte.toNat := toNat_commandWord 4 0 byte
  have hb := byte.isLt
  have hop : (encode (.shift byte)).toNat / 0x10000 = 4 := by omega
  constructor
  · simp only [wordWellFormed, lineCodeAssigned, hop, opcodeAssigned, Bool.and_true, Bool.and_eq_true,
      decide_eq_true_eq]
    omega
  · simp only [wordCanonical, hop, usedBits, beq_iff_eq]
    have hd : ∀ b : Byte, commandWord 0x4 0 b &&& 0xF00FF#20 = commandWord 0x4 0 b := by decide
    exact hd byte

theorem pulse : Statement .pulse := ⟨by decide, by decide⟩

theorem setLine (line : Line) (value : Bool) : Statement (.setLine line value) := by
  cases line <;> cases value <;> exact ⟨by decide, by decide⟩

theorem cfgout (line : Line) : Statement (.cfgout line) := by
  cases line <;> exact ⟨by decide, by decide⟩

end Sys2Proof.Laws.EncodesCanonically
end

