-- ==== Sys2Proof/Tests/Slice0.lean ====
section
/-! SUPPORT. Tests on the spec's own vectors (95_test_vectors.md, S1 to S7, sections 2.1 to 2.8, P1 to P7), the smoke
tests of well-formedness, and for each statement with hypotheses a witness that meets them. -/

namespace Sys2Proof.Tests

open Sys2Proof.Machine Sys2Proof.Config

/-- The answer is a next state that passes `p`. -/
def nextWith (r : Result) (p : State → Bool) : Bool :=
  match r with
  | .next t => p t
  | .fault _ => false
  | .refused _ => false

/-- The answer is the fault `f`. -/
def faultsWith (r : Result) (f : Fault) : Bool :=
  match r with
  | .fault g => decide (g = f)
  | .next _ => false
  | .refused _ => false

/-- `decode w` is `.ok i`. -/
def decodesTo (w : CommandWord) (i : Instr) : Bool :=
  match decode w with
  | .ok j => decide (j = i)
  | .error _ => false

/-- `decode w` is `.error r`. -/
def rejectedAs (w : CommandWord) (r : DecodeReject) : Bool :=
  match decode w with
  | .ok _ => false
  | .error q => decide (q = r)

/-- A READY state with the levels of LATCH, CLOCK, DATA and the load given (the vectors' `DIR=OOO L C D SR OUT`). -/
def ready (l c d : Bool) (sr out : Frame) : State :=
  { State.resetWith Params.standard sr out with level := ⟨l, c, d⟩, dir := ⟨.out, .out, .out⟩ }

/-- The same with moves of the host's to come and the host's obligation kept or not. -/
def hosted (s : State) (exclusive : Bool) (moves : List HostMove) : State :=
  { s with params := { s.params with hostExclusive := exclusive }, host := moves }

/-! Well-formedness: each check refuses an ill-formed word (R86 to R88). -/

theorem test_opcode_zero_is_ill_formed : wordWellFormed 0x00000 = false := by decide

theorem test_opcode_eight_is_ill_formed : wordWellFormed 0x80000 = false := by decide

theorem test_set_line_three_is_ill_formed : wordWellFormed 0x60006 = false := by decide

theorem test_cfgout_line_three_is_ill_formed : wordWellFormed 0x70003 = false := by decide

theorem test_ignored_bits_are_not_canonical : wordCanonical 0x1ABCD = false := by decide

theorem test_show_is_well_formed : wordWellFormed 0x210F9 = true ∧ wordCanonical 0x210F9 = true := by decide

/-! Decoding: words written out from R85, bit by bit (opcode, operand a, operand b), and section 2.6. -/

theorem test_decode_init : decodesTo 0b0001_00000000_00000000 .init = true := by decide

theorem test_decode_show : decodesTo 0b0010_00010000_11111001 (.showDigit 0b11111001 0b00010000) = true := by decide

theorem test_decode_clr : decodesTo 0b0011_00000000_00000000 .clr = true := by decide

theorem test_decode_shift : decodesTo 0b0100_00000000_10100101 (.shift 0xA5) = true := by decide

theorem test_decode_pulse : decodesTo 0b0101_00010010_00110100 .pulse = true := by decide

theorem test_decode_set_clock_high : decodesTo 0b0110_00000000_00000_01_1 (.setLine .clock true) = true := by decide

theorem test_decode_set_data_low : decodesTo 0b0110_00000000_00000_10_0 (.setLine .data false) = true := by decide

theorem test_decode_cfgout_data : decodesTo 0b0111_00000000_000000_10 (.cfgout .data) = true := by decide

theorem test_decode_ignored_bits : decodesTo 0x6ABFB (.setLine .clock true) = true := by decide

theorem test_decode_reserved : rejectedAs 0xFFFFF .reservedOpcode = true ∧ rejectedAs 0x600FE .reservedLine = true := by
  decide

theorem test_encode_canonical_words :
    encode .init = 0x10000 ∧ encode (.showDigit 0xF9 0x10) = 0x210F9 ∧ encode .clr = 0x30000 ∧
      encode (.shift 0xA5) = 0x400A5 ∧ encode .pulse = 0x50000 ∧ encode (.setLine .data true) = 0x60005 ∧
      encode (.cfgout .clock) = 0x70001 := by
  decide

theorem test_table_word : decodeTableWord 24 0x210F9 = some (.showDigit 0xF9 0x10) ∧ decodeTableWord 20 0 = none := by
  decide

/-! The operations, on the vectors of sections 2.1 to 2.5. -/

/-- Section 2.1 row 1. -/
theorem test_set_clock_shifts :
    nextWith (exec (.setLine .clock true) (ready false false true 0x1234 0x5555))
      (fun t => t.sr == 0x2469 && t.out == 0x5555 && t.level.clock) = true := by
  decide

/-- Section 2.1 row 8. -/
theorem test_set_data_under_high_clock :
    faultsWith (exec (.setLine .data false) (ready false true true 0x1234 0x5555))
      (.dataChangeWhileClockHigh ⟨.main, .setLine .data false, 0⟩) = true := by
  decide

/-- Section 2.1 row 13. -/
theorem test_cfgout_clock :
    nextWith (exec (.cfgout .clock) State.reset)
      (fun t => t.dir == ⟨.unconf, .out, .unconf⟩ && t.mode == .uninitialized && t.trace == [.lineDir .clock]) = true := by
  decide

/-- Section 2.2 row 3. -/
theorem test_pulse_drops_the_top_bit :
    nextWith (exec .pulse (ready false false true 0x8000 0x5555))
      (fun t => t.sr == 0x0001 && t.out == 0x5555 && !t.level.clock && t.trace.length == 3) = true := by
  decide

/-- Section 2.2 row 5. -/
theorem test_pulse_under_high_latch :
    faultsWith (exec .pulse (ready true false true 0x1234 0x5555)) (.shiftWhileLatchHigh ⟨.main, .pulse, 0⟩) = true := by
  decide

/-- Section 2.3 row 3. -/
theorem test_shift_a5 :
    nextWith (exec (.shift 0xA5) (ready false false false 0x1234 0x5555))
      (fun t => t.sr == 0x34A5 && t.out == 0x5555 && t.level == ⟨false, false, true⟩) = true := by
  decide

/-- Section 2.3 row 7. -/
theorem test_shift_from_high_clock :
    nextWith (exec (.shift 0xA5) (ready false true true 0x1234 0x5555)) (fun t => t.sr == 0x1A25) = true := by
  decide

/-- Section 2.4 row 6. -/
theorem test_show_passes_the_low_nibble_through :
    nextWith (exec (.showDigit 0xB0 0x4A) (ready true false true 0xBEEF 0xBEEF))
      (fun t => t.sr == 0x4AB0 && t.out == 0x4AB0 && t.level == ⟨true, false, false⟩ && t.trace.length == 66) = true := by
  decide

/-- Section 2.4 row 11. -/
theorem test_show_from_high_clock :
    nextWith (exec (.showDigit 0xF9 0x10) (ready false true false 0xABCD 0xABCD)) (fun t => t.out == 0x90F9) = true := by
  decide

/-- S1: the display of the source's own frame: digit 0, segment outputs 1 and 2. -/
theorem test_lit_of_the_source_frame :
    ∀ k : Fin 4, ∀ j : Fin 8, lit 0x10F9 k j = (decide (k = 0) && (decide (j = 1) || decide (j = 2))) := by
  decide

/-- Section 2.5 row 3. -/
theorem test_init_completes_the_configuration :
    nextWith (exec .init { State.reset with dir := ⟨.unconf, .out, .unconf⟩ })
      (fun t => t.mode == .ready && t.trace == [.lineDir .latch, .lineDir .clock, .lineDir .data]) = true := by
  decide

/-- Section 2.5 row 5: another value of `CLR_POSITION`. -/
theorem test_clr_with_another_position :
    nextWith (exec .clr { ready false false false 0 0 with params := { Params.standard with clrPosition := 0xF0 } })
      (fun t => t.sr == 0xF0FF && t.out == 0xF0FF && t.level == ⟨true, false, true⟩) = true := by
  decide

/-- Section 2.5 row 6. -/
theorem test_clr_before_init : faultsWith (exec .clr State.reset) (.useBeforeInit ⟨.main, .clr, 0⟩) = true := by
  decide

/-! One step: placing, refusing, issuing, the engine. -/

/-- `INIT` placed at reset runs in the very next step (P1). -/
theorem test_step_runs_init_first :
    nextWith (step (State.reset.withFetchWord 24 0x10000)) (fun t => t.mode == .ready && t.host == []) = true := by
  decide

/-- Section 2.6, the last line: the refusal comes before the admission check, and the run goes on. -/
theorem test_refusal_before_admission :
    nextWith (step (hosted State.reset true [.issue .main 0x60006]))
      (fun t => t.refused == some .reservedLine && t.trace == [] && t.inflMain == none) = true := by
  decide

/-- Section 2.7, `F' = 0x20A4`, k = 15: CLOCK is high and DATA holds 1, so IRQ's first DATA write faults. -/
theorem test_preempting_frame_clashes :
    faultsWith
      (step
        { hosted (ready false true true 0x0001 0x5555) false [.call .irq 0x220A4] with
          inflMain := some ⟨.showDigit 0xF9 0x10, 15⟩ })
      (.dataChangeWhileClockHigh ⟨.irq, .showDigit 0xA4 0x20, 1⟩) = true := by
  decide

/-- R170: a called `SHOW` that faults at its STEP 1, the first DATA write, has driven LATCH low and traced it. -/
theorem test_faulting_call_keeps_earlier_micro_operations :
    let s := hosted (ready true true false 0x1234 0x5555) true [.call .main 0x280A4]
    let t := advance s
    t.fault = some (.dataChangeWhileClockHigh ⟨.main, .showDigit 0xA4 0x80, 1⟩) ∧ t.level = ⟨false, true, false⟩ ∧
      t.trace = [.lineWrite .latch false] ∧ t.inflMain = some ⟨.showDigit 0xA4 0x80, 1⟩ ∧ t.sr = 0x1234 ∧
      t.out = 0x5555 := by
  decide

/-- R208: a reserved word issued by IRQ during a MAIN operation is an `Issue` of IRQ's. -/
theorem test_reserved_word_preempts :
    irqDelivered { hosted (ready false false false 0 0) false [.issue .irq 0] with inflMain := some ⟨.clr, 5⟩ } = true := by
  decide

/-! Witnesses: for each statement with hypotheses, operands and a state that meet them. -/

/-- Any state named here has no fault mark and is idle. -/
theorem test_witness_ready_state :
    FrameEntry (ready false false false 0x1234 0x5555) ∧ ShiftEntry (ready false false false 0x1234 0x5555) ∧
      (ready false true true 0x1234 0x5555).mode = .ready := by
  decide

theorem test_witness_IgnoredBitsDoNotMatter :
    (0x1ABCD : CommandWord) &&& usedBits ((0x1ABCD : CommandWord).toNat / 0x10000) =
        (0x10000 : CommandWord) &&& usedBits ((0x1ABCD : CommandWord).toNat / 0x10000) ∧
      decodesTo 0x4FFA5 (.shift 0xA5) = true := by
  decide

theorem test_witness_StepRunsTheCalledOperation :
    let s := hosted State.reset true [.call .main 0x10000]
    s.fault = none ∧ s.host = .call .main 0x10000 :: [] ∧ issueEnabled .main s = true ∧ decodesTo 0x10000 .init = true ∧
      decodeTableWord 24 0x10000 = some .init := by
  decide

/-- For the called and the issued operation, from both contexts; IRQ's with a MAIN operation in flight. -/
theorem test_witness_CallIsIssueThenEngineSteps :
    let s := { hosted (ready false false false 0 0) false [] with inflMain := some ⟨.pulse, 1⟩ }
    issueEnabled .main State.reset = true ∧ State.reset.fault = none ∧ issueEnabled .irq s = true ∧ s.fault = none ∧
      decodesTo 0x210F9 (.showDigit 0xF9 0x10) = true := by
  decide

theorem test_witness_IssueMakesTheRecordOnly :
    let s := hosted (ready false false false 0 0) true [.issue .main 0x50000]
    let r := hosted (ready false false false 0 0) true [.issue .irq 0x50000]
    s.fault = none ∧ decodesTo 0x50000 .pulse = true ∧ linesConfigured (linesNeeded .pulse) s = true ∧
      issueEnabled .main s = true ∧ s.host = .issue .main 0x50000 :: [] ∧
      r.fault = none ∧ linesConfigured (linesNeeded .pulse) r = true ∧
      issueEnabled .irq r = true ∧ r.host = .issue .irq 0x50000 :: [] := by
  decide

/-- Each way an issue can be disabled. -/
theorem test_witness_IssueNotEnabledWaits :
    let s := { hosted (ready false false false 0 0) true [.issue .main 0x50000] with inflMain := some ⟨.pulse, 2⟩ }
    let r := { hosted (ready false false false 0 0) false [.call .main 0x50000] with inflIrq := some ⟨.pulse, 2⟩ }
    let q := { hosted (ready false false false 0 0) true [.issue .irq 0x50000] with inflMain := some ⟨.pulse, 2⟩ }
    let p := { hosted (ready false false false 0 0) false [.issue .irq 0x50000] with inflIrq := some ⟨.pulse, 2⟩ }
    s.inflMain ≠ none ∧ r.inflIrq ≠ none ∧ (q.params.hostExclusive = true ∧ q.inflMain ≠ none) ∧ p.inflIrq ≠ none ∧
      nextWith (engineStep s) (fun t => t.host == s.host) = true ∧
      nextWith (engineStep r) (fun t => t.host == r.host) = true ∧
      nextWith (engineStep q) (fun t => t.host == q.host) = true ∧
      nextWith (engineStep p) (fun t => t.host == p.host) = true := by
  decide

/-- Both sides of when `Issue` is enabled, for both contexts. -/
theorem test_witness_issueEnabled :
    let s := { hosted (ready false false false 0 0) false [] with inflMain := some ⟨.pulse, 2⟩ }
    let r := { hosted (ready false false false 0 0) true [] with inflMain := some ⟨.pulse, 2⟩ }
    issueEnabled .main State.reset = true ∧ issueEnabled .irq State.reset = true ∧ issueEnabled .main s = false ∧
      issueEnabled .irq s = true ∧ issueEnabled .irq r = false := by
  decide

theorem test_witness_EngineServesTheInterruptContextFirst :
    let s := { ready false false true 0 0 with inflMain := some ⟨.pulse, 1⟩, inflIrq := some ⟨.pulse, 0⟩ }
    let r := { ready false true true 0 0 with inflMain := some ⟨.pulse, 2⟩ }
    (microOps s.params .pulse)[0]? = some (.lineWrite .clock true) ∧
      nextWith (engineStep s) (fun t => t.inflIrq == some ⟨.pulse, 1⟩) = true ∧
      (microOps r.params .pulse)[2]? = some (.lineWrite .clock false) ∧
      nextWith (engineStep r) (fun t => t.inflMain == none) = true ∧
      faultsWith (engineStep { ready true false true 0 0 with inflMain := some ⟨.pulse, 0⟩ })
        (.shiftWhileLatchHigh ⟨.main, .pulse, 0⟩) = true ∧
      faultsWith (engineStep { ready true false true 0 0 with inflIrq := some ⟨.pulse, 0⟩ })
        (.shiftWhileLatchHigh ⟨.irq, .pulse, 0⟩) = true := by
  decide

/-- The boundary opcodes 0 and 8, issued and called. -/
theorem test_witness_ReservedOpcodeIsRefused :
    let s := hosted State.reset true [.issue .main 0x0FFFF]
    let r := hosted State.reset true [.call .irq 0x80000]
    s.fault = none ∧ issueEnabled .main s = true ∧ s.host = .issue .main 0x0FFFF :: [] ∧
      (0x0FFFF : CommandWord).toNat / 0x10000 = 0 ∧
      r.fault = none ∧ issueEnabled .irq r = true ∧ r.host = .call .irq 0x80000 :: [] ∧
      8 ≤ (0x80000 : CommandWord).toNat / 0x10000 := by
  decide

theorem test_witness_ReservedLineIsRefused :
    let s := hosted State.reset true [.issue .main 0x60007]
    let r := hosted State.reset true [.call .irq 0x70003]
    s.fault = none ∧ issueEnabled .main s = true ∧ s.host = .issue .main 0x60007 :: [] ∧
      ((0x60007 : CommandWord).toNat / 0x10000 = 6 ∧ (0x60007 : CommandWord).toNat / 2 % 4 = 3) ∧
      r.fault = none ∧ issueEnabled .irq r = true ∧ r.host = .call .irq 0x70003 :: [] ∧
      ((0x70003 : CommandWord).toNat / 0x10000 = 7 ∧ (0x70003 : CommandWord).toNat % 4 = 3) := by
  decide

theorem test_witness_EveryPulseIsHeldHigh (p : Params) :
    (microOps p .pulse)[0]? = some (.lineWrite .clock true) ∧ (microOps p .clr)[62]? = some (.lineWrite .clock true) :=
  ⟨rfl, rfl⟩

/-- Only CLOCK, only LATCH configured (section 2.1 row 12). -/
theorem test_witness_SetEdges :
    let s := { State.reset with dir := ⟨.unconf, .out, .unconf⟩ }
    let r := { State.reset with dir := ⟨.out, .unconf, .unconf⟩ }
    (s.fault = none ∧ s.dir.clock = .out ∧ s.level.clock = false ∧ s.level.latch = false) ∧
      (r.fault = none ∧ r.dir.latch = .out ∧ r.level.latch = false) := by
  decide

/-- A fall, a repeated level, a DATA change under a low clock, the same DATA level under a high one. -/
theorem test_witness_SetWithoutAnEdgeStoresTheLevel :
    let s := ready true true false 0 0
    let r := ready true false false 0 0
    s.fault = none ∧ s.dir.get .clock = .out ∧ s.level.get .clock = true ∧ s.level.get .latch = true ∧
      s.level.data = false ∧ s.level.clock = true ∧ r.fault = none ∧ r.dir.get .data = .out ∧ r.level.clock = false := by
  decide

theorem test_witness_CfgoutConfiguresItsLineOnly :
    State.reset.fault = none ∧ Line.data ≠ .latch ∧ Line.latch ≠ .clock ∧ Line.data ≠ .clock := by
  decide

/-- A micro-operation of each kind, and both rising edges, answers a next state. -/
theorem test_witness_MicroOperations :
    let s := ready false false true 0x1234 0x5555
    let x : Site := ⟨.main, .pulse, 0⟩
    nextWith (perform x (.lineWrite .clock true) s) (fun t => t.sr == 0x2469) = true ∧
      nextWith (perform x (.lineWrite .latch true) s) (fun t => t.out == 0x1234) = true ∧
      nextWith (perform x (.lineWrite .data false) s) (fun t => t.sr == 0x1234) = true ∧
      nextWith (perform x (.lineDir .data) s) (fun t => t == s) = true ∧
      nextWith (perform x .delay s) (fun t => t == s) = true := by
  decide

/-- An engine step about to write DATA: clock high and a change; clock high and no change; clock low and a change. -/
theorem test_witness_DataChangeUnderHighClockFaults :
    let s := { ready false true false 0 0 with inflMain := some ⟨.shift 0x80, 0⟩ }
    let r := { ready false true true 0 0 with inflIrq := some ⟨.shift 0x80, 0⟩ }
    let q := { ready false false false 0 0 with inflMain := some ⟨.shift 0x80, 0⟩ }
    activeContext s = .main ∧ (microOps s.params (.shift 0x80))[0]? = some (.lineWrite .data true) ∧
      s.level.clock = true ∧ true ≠ s.level.data ∧ activeContext r = .irq ∧ r.level.data = true ∧
      r.infl .irq = some ⟨.shift 0x80, 0⟩ ∧ q.infl .main = some ⟨.shift 0x80, 0⟩ ∧ q.level.clock = false := by
  decide

theorem test_witness_ShiftUnderHighLatchFaults :
    let s := { ready true false false 0 0 with inflMain := some ⟨.pulse, 0⟩ }
    let r := { ready false false false 0 0 with inflIrq := some ⟨.pulse, 0⟩ }
    activeContext s = .main ∧ s.infl .main = some ⟨.pulse, 0⟩ ∧
      (microOps s.params .pulse)[0]? = some (.lineWrite .clock true) ∧ s.level.clock = false ∧ s.level.latch = true ∧
      activeContext r = .irq ∧ r.infl .irq = some ⟨.pulse, 0⟩ ∧ r.level.clock = false ∧ r.level.latch = false := by
  decide

theorem test_witness_UseBeforeInitTable :
    State.reset.fault = none ∧ State.reset.dir.get .data ≠ .out ∧ State.reset.mode ≠ .ready ∧
      (ready false false false 0 0).mode = .ready := by
  decide

theorem test_witness_AdmissionCoversEveryLineWritten (p : Params) :
    MicroOp.lineWrite .clock true ∈ microOps p .pulse := by
  simp [microOps, pulseOps]

theorem test_witness_FaultedStateIsQuiescent :
    let f := Fault.useBeforeInit ⟨.main, .clr, 0⟩
    (State.reset.halt f).fault = some f := by
  decide

/-- The three entries of `PULSE`, and the five of `SHIFT`. -/
theorem test_witness_PulseAndShiftEntries :
    (∀ l c d, (ready l c d 0 0).fault = none ∧ (ready l c d 0 0).dir.clock = .out ∧ (ready l c d 0 0).dir.data = .out ∧
      (ready l c d 0 0).level.latch = l ∧ (ready l c d 0 0).level.clock = c ∧ (ready l c d 0 0).level.data = d) ∧
      (0x80 : Byte).getLsbD 7 = true ∧ (0x7F : Byte).getLsbD 7 = false := by
  decide

theorem test_witness_ShiftLeavesDataAtBitZero :
    nextWith (exec (.shift 0x01) (ready false false false 0 0)) (fun _ => true) = true := by
  decide

theorem test_witness_SixteenShiftsFlushTheChain : (List.replicate 16 true).length = 16 := by decide

/-- Both branches of a `SHOW` from a high clock. -/
theorem test_witness_ShowFromHighClockLosesABit :
    let s := ready false true false 0xABCD 0xABCD
    s.fault = none ∧ s.mode = .ready ∧ s.level.clock = true ∧ (0x10 : Byte).getLsbD 7 = s.level.data ∧
      (0x80 : Byte).getLsbD 7 ≠ s.level.data := by
  decide

theorem test_witness_NoPartialFrameIsShown :
    let s := { ready true false true 0x10F9 0x10F9 with inflMain := some ⟨.showDigit 0xA4 0x20, 0⟩ }
    s.level.clock = false ∧ s.inflIrq = none ∧ s.inflMain = some ⟨.showDigit 0xA4 0x20, 0⟩ := by
  decide

/-- Each of the seven operations answers a next state somewhere. -/
theorem test_witness_OperationFrame :
    let s := ready false false false 0x1234 0x5555
    nextWith (exec .init s) (fun _ => true) = true ∧ nextWith (exec (.showDigit 0xF9 0x10) s) (fun _ => true) = true ∧
      nextWith (exec .clr s) (fun _ => true) = true ∧ nextWith (exec (.shift 0xA5) s) (fun _ => true) = true ∧
      nextWith (exec .pulse s) (fun _ => true) = true ∧
      nextWith (exec (.setLine .latch true) s) (fun _ => true) = true ∧
      nextWith (exec (.cfgout .data) s) (fun _ => true) = true := by
  decide

/-- A step that answers a next state from a READY state with the mark REFUSED set. -/
theorem test_witness_StepKeepsMarksAndHistory :
    let s := { hosted (ready false false false 0 0) true [.call .main 0x50000] with refused := some .reservedLine }
    s.mode = .ready ∧ s.refused ≠ none ∧ nextWith (step s) (fun t => t.refused == some .reservedLine) = true := by
  decide

/-- A state with operations in flight in both contexts that meets the invariant, and a step from it. -/
theorem test_witness_InvariantIsKeptByEveryStep :
    let s := { hosted (ready false false false 0 0) false [] with
      inflMain := some ⟨.showDigit 0xF9 0x10, 5⟩, inflIrq := some ⟨.pulse, 0⟩ }
    Inv s ∧ nextWith (step s) (fun t => t.inflIrq == some ⟨.pulse, 1⟩) = true := by
  refine ⟨⟨?_, ?_, ?_, ?_⟩, by decide⟩
  · intro l v h
    cases h
  · intro r h
    cases h
    decide
  · intro r h
    cases h
    decide
  · intro h
    cases h

theorem test_witness_LevelsAreTheLastWritten :
    let s := hosted State.reset true [.call .main 0x10000]
    (∀ l ∈ [Line.latch, .clock, .data], s.level.get l = lastWritten l (s.params.resetLevel.get l) s.trace) ∧
      nextWith (step s) (fun _ => true) = true := by
  decide

/-- From whatever level of CLOCK. -/
theorem test_witness_PulsingOperationsEndWithClockLow :
    nextWith (exec .pulse (ready true true false 0 0)) (fun t => !t.level.clock) = true ∧
      nextWith (exec .clr (ready true false false 0 0)) (fun t => !t.level.clock) = true := by
  decide

/-- An operation in flight, the invariant met, no move of the host's to come. -/
theorem test_witness_EveryOperationComesToAnEnd :
    let s := { ready false false false 0 0 with inflMain := some ⟨.pulse, 0⟩ }
    Inv s ∧ s.fault = none ∧ s.host = [] := by
  refine ⟨⟨?_, ?_, ?_, ?_⟩, rfl, rfl⟩
  · intro l v h
    cases h
  · intro r h
    cases h
    decide
  · intro r h
    cases h
  · intro _
    exact .inr rfl

/-- The host's list of the preemption statements, for every `k` (the boundaries 1, 3, 62, 63, 64, 65 among them). -/
theorem test_witness_PreemptionHost (k : Nat) :
    let s := hosted (ready false false false 0x5555 0x5555) false
      (.issue .main 0x210F9 :: (List.replicate k .pass ++ [.call .irq 0x220A4]))
    FrameEntry s ∧ s.params.hostExclusive = false ∧
      s.host = .issue .main 0x210F9 :: (List.replicate k .pass ++ [.call .irq 0x220A4]) :=
  ⟨⟨⟨rfl, rfl⟩, ⟨rfl, rfl⟩, rfl, rfl⟩, rfl, rfl⟩

/-- The boundaries built in full: `k` = 1, 3, 62, 63, 64, 65 is that many passes between MAIN's issue and IRQ's call. -/
theorem test_witness_PreemptionBoundaries :
    ∀ k ∈ [1, 3, 62, 63, 64, 65],
      let s := hosted (ready false false false 0x5555 0x5555) false
        (.issue .main 0x210F9 :: (List.replicate k .pass ++ [.call .irq 0x280A4]))
      s.host.length = k + 2 ∧ s.host[0]? = some (.issue .main 0x210F9) ∧ s.host[k]? = some .pass ∧
        s.host[k + 1]? = some (.call .irq 0x280A4) := by
  decide

/-- The preemption statements' common premises, and the four places at their boundaries: k = 1, 2, 62 with a low clock;
k = 3, 4, 63, 64 with a high one; bits that differ and bits that agree (section 2.7). -/
theorem test_witness_Preemption :
    let s := hosted (ready false false false 0x5555 0x5555) false
      (.issue .main 0x210F9 :: (List.replicate 4 .pass ++ [.call .irq 0x220A4]))
    FrameEntry s ∧ s.params.hostExclusive = false ∧ decodesTo 0x210F9 (.showDigit 0xF9 0x10) = true ∧
      decodesTo 0x220A4 (.showDigit 0xA4 0x20) = true ∧ decodesTo 0x280A4 (.showDigit 0xA4 0x80) = true ∧
      s.host = .issue .main 0x210F9 :: (List.replicate 4 .pass ++ [.call .irq 0x220A4]) ∧
      (1 - 1) % 4 < 2 ∧ (2 - 1) % 4 < 2 ∧ (62 - 1) % 4 < 2 ∧ 2 ≤ (3 - 1) % 4 ∧ 2 ≤ (4 - 1) % 4 ∧ 2 ≤ (63 - 1) % 4 ∧
      2 ≤ (64 - 1) % 4 ∧
      (0x80 : Byte).getLsbD 7 ≠ ((0x10 : Byte) ++ (0xF9 : Byte)).getLsbD (15 - (4 - 1) / 4) ∧
      (0x20 : Byte).getLsbD 7 = ((0x10 : Byte) ++ (0xF9 : Byte)).getLsbD (15 - (4 - 1) / 4) ∧
      (0x80 : Byte).getLsbD 7 = (0xF9 : Byte).getLsbD 0 := by
  decide

/-- A call refused admission, calls that fault at STEP 0 and at STEP 1, and a faulting engine step. -/
theorem test_witness_FaultIsPrecise :
    let s := hosted State.reset true [.call .main 0x30000]
    let r := hosted (ready true false false 0 0) true [.call .irq 0x50000]
    let q := hosted (ready true false false 0 0) true [.call .main 0x400A5]
    let p := { ready true false false 0 0 with inflMain := some ⟨.pulse, 0⟩ }
    (s.fault = none ∧ issueEnabled .main s = true ∧ decodesTo 0x30000 .clr = true ∧
        faultsWith (step s) (.useBeforeInit ⟨.main, .clr, 0⟩) = true) ∧
      (r.fault = none ∧ issueEnabled .irq r = true ∧ decodesTo 0x50000 .pulse = true ∧
        faultsWith (step r) (.shiftWhileLatchHigh ⟨.irq, .pulse, 0⟩) = true) ∧
      (issueEnabled .main q = true ∧ decodesTo 0x400A5 (.shift 0xA5) = true ∧
        faultsWith (step q) (.shiftWhileLatchHigh ⟨.main, .shift 0xA5, 1⟩) = true) ∧
      p.host = [] ∧ faultsWith (step p) (.shiftWhileLatchHigh ⟨.main, .pulse, 0⟩) = true := by
  decide

/-- Both branches of a `CLR` from a high clock, for the default `CLR_POSITION`. -/
theorem test_witness_ClrFromHighClockLosesABit :
    let s := ready false true false 0xABCD 0xABCD
    let r := ready false true true 0xABCD 0xABCD
    s.fault = none ∧ s.mode = .ready ∧ s.level.clock = true ∧ s.params.clrPosition.getLsbD 7 = s.level.data ∧
      r.mode = .ready ∧ r.level.clock = true ∧ r.params.clrPosition.getLsbD 7 ≠ r.level.data := by
  decide

/-- A MAIN `SHOW`, and a `CLR`, with no other move on the list: the premises, the run `Unpreempted`. -/
theorem test_witness_UnpreemptedFrameKeepsFrameEntry :
    let s := hosted (ready true false true 0xABCD 0xABCD) false [.issue .main 0x210F9]
    let r := hosted (ready true false true 0xABCD 0xABCD) true [.issue .main 0x30000]
    (FrameEntry s ∧ decodesTo 0x210F9 (.showDigit 0xF9 0x10) = true ∧ Unpreempted 67 s) ∧
      FrameEntry r ∧ r.params.hostExclusive = true ∧ decodesTo 0x30000 .clr = true ∧ Unpreempted 67 r := by
  refine ⟨⟨by decide, by decide, ?_, ?_⟩, by decide, by decide, by decide, ?_, ?_⟩
  · intro h
    cases h
  · exact unpreempted_of_no_moves 66 rfl
  · intro h
    cases h
  · exact unpreempted_of_no_moves 66 rfl

end Sys2Proof.Tests
end

section
/-! SUPPORT. The clock pulses of the lists: every rise is held (R120, R122), and every delay is paid for at the minimum
rate (R6, R121, R204). -/

namespace Sys2Proof.Machine

open Sys2Proof.Config

/-- Every rise of CLOCK in the list is followed by the delay and the fall (R120, R122). -/
def PulsesHeld (ms : List MicroOp) : Prop :=
  ∀ k, ms[k]? = some (.lineWrite .clock true) →
    ms[k + 1]? = some .delay ∧ ms[k + 2]? = some (.lineWrite .clock false)

theorem pulsesHeld_nil : PulsesHeld [] := by
  simp [PulsesHeld]

theorem pulsesHeld_cons {m : MicroOp} {ms : List MicroOp} (hm : m ≠ .lineWrite .clock true) (h : PulsesHeld ms) :
    PulsesHeld (m :: ms)
  | 0, h0 => absurd (Option.some.inj h0) hm
  | k + 1, hk => h k hk

/-- A whole pulse before a list of held pulses. -/
theorem pulsesHeld_pulseOps_append {ms : List MicroOp} (h : PulsesHeld ms) : PulsesHeld (pulseOps ++ ms)
  | 0, _ => ⟨rfl, rfl⟩
  | k + 1, hk => pulsesHeld_cons (m := .delay) (by decide)
      (pulsesHeld_cons (m := .lineWrite .clock false) (by decide) h) k hk

theorem pulsesHeld_bits_append (bits : List Bool) {ms : List MicroOp} (h : PulsesHeld ms) :
    PulsesHeld (bits.flatMap bitOps ++ ms) := by
  induction bits with
  | nil => exact h
  | cons v bits ih =>
    rw [List.flatMap_cons, List.append_assoc]
    exact pulsesHeld_cons (by simp) (pulsesHeld_pulseOps_append ih)

theorem pulsesHeld_pulseOps : PulsesHeld pulseOps :=
  pulsesHeld_pulseOps_append pulsesHeld_nil

theorem pulsesHeld_shiftOps (b : Byte) : PulsesHeld (shiftOps b) := by
  simpa [shiftOps] using pulsesHeld_bits_append (bitsMsbFirst b) pulsesHeld_nil

theorem pulsesHeld_showOps (g q : Byte) : PulsesHeld (showOps g q) := by
  unfold showOps
  rw [List.append_assoc]
  have hend : PulsesHeld [.lineWrite .latch true] := pulsesHeld_cons (by decide) pulsesHeld_nil
  exact pulsesHeld_cons (by decide) (pulsesHeld_bits_append _ (pulsesHeld_bits_append _ hend))

/-- The free draw never falls below `T_HIGH_MIN` (R6, R121; log 6). -/
theorem tHighMin_le_tHigh (n : Nat) : tHighMin ≤ tHigh n :=
  Nat.le_add_right _ _

/-- Every delay of a list costs at least `T_HIGH_MIN` (R121, R204). -/
theorem count_delay_mul_tHighMin_le_waitTime (n : Nat) (ms : List MicroOp) :
    ms.count .delay * tHighMin ≤ waitTime n ms := by
  induction ms generalizing n with
  | nil => simp
  | cons m ms ih =>
    cases m with
    | delay =>
      have hd := tHighMin_le_tHigh n
      have hr := ih (n + 1)
      rw [List.count_cons_self, Nat.add_mul, waitTime]
      omega
    | lineWrite l v => simpa [waitTime] using ih n
    | lineDir l => simpa [waitTime] using ih n

/-- One delay for each bit sent (R130). -/
theorem count_delay_bits (bits : List Bool) : (bits.flatMap bitOps).count .delay = bits.length := by
  induction bits with
  | nil => rfl
  | cons v bits ih => simp [ih, bitOps, pulseOps]

@[simp] theorem count_delay_shiftOps (b : Byte) : (shiftOps b).count .delay = 8 :=
  count_delay_bits _

@[simp] theorem count_delay_showOps (g q : Byte) : (showOps g q).count .delay = 16 := by
  simp [showOps]

theorem le_waitTime_pulseOps (n : Nat) : 2000 ≤ waitTime n pulseOps :=
  count_delay_mul_tHighMin_le_waitTime n pulseOps

theorem le_waitTime_shiftOps (n : Nat) (b : Byte) : 16000 ≤ waitTime n (shiftOps b) := by
  simpa [tHighMin] using count_delay_mul_tHighMin_le_waitTime n (shiftOps b)

theorem le_waitTime_showOps (n : Nat) (g q : Byte) : 32000 ≤ waitTime n (showOps g q) := by
  simpa [tHighMin] using count_delay_mul_tHighMin_le_waitTime n (showOps g q)

/-- Settles O14: held pulses compose along the lists, and each delay counts for at least `T_HIGH_MIN`. -/
theorem everyPulseIsHeldHigh : Obligations.EveryPulseIsHeldHigh := by
  unfold Obligations.EveryPulseIsHeldHigh
  refine ⟨tHighMin_le_tHigh, ?_, fun p n b g q => ⟨le_waitTime_pulseOps n, le_waitTime_shiftOps n b,
    le_waitTime_showOps n g q, le_waitTime_showOps n 0xFF p.clrPosition⟩⟩
  rintro p i (⟨b, rfl⟩ | ⟨g, q, rfl⟩ | rfl | rfl)
  · exact pulsesHeld_shiftOps b
  · exact pulsesHeld_showOps g q
  · exact pulsesHeld_showOps 0xFF p.clrPosition
  · exact pulsesHeld_pulseOps

end Sys2Proof.Machine
end

section
/-! SUPPORT. What one step can do, said once: the delivery of a move, the step, and what every list of micro-operations
does to the levels, the directions, the trace, the parameters and the marks (R21, R22, R29, R33, R34, R166). -/

namespace Sys2Proof.Machine

/-- The last write of two lists one after the other is that of the second, else that of the first. -/
theorem lastWritten_append (l : Line) (v : Bool) (ms ns : List MicroOp) :
    lastWritten l v (ms ++ ns) = lastWritten l (lastWritten l v ms) ns := by
  induction ms generalizing v with
  | nil => rfl
  | cons m ms ih => cases m <;> simp [lastWritten, ih]

/-- A micro-operation writes the level its list of one gives (R21, R110). -/
theorem perform_level {site : Site} {m : MicroOp} {s t : State} (h : perform site m s = .next t) (l : Line) :
    t.level.get l = lastWritten l (s.level.get l) [m] := by
  cases m with
  | lineWrite k v =>
    rw [lineWrite_next h]
    exact PerLine.get_set s.level k l v
  | lineDir k => cases h; rfl
  | delay => cases h; rfl

/-- A direction is written by `LineDir` of its line alone (R22, R111). -/
theorem perform_dir {site : Site} {m : MicroOp} {s t : State} (h : perform site m s = .next t) (l : Line) :
    t.dir.get l = if m = .lineDir l then .out else s.dir.get l := by
  cases m with
  | lineWrite k v => rw [lineWrite_next h]; simp
  | lineDir k => cases h; simp [PerLine.get_set]
  | delay => cases h; simp

/-- `t` is `s` after the micro-operations `ms`, as far as the trace, the levels, the parameters and the marks go; no line
is un-configured, and a mark REFUSED stays (R21, R22, R33, R34). -/
structure Extends (ms : List MicroOp) (s t : State) : Prop where
  trace : t.trace = s.trace ++ ms
  level : ∀ l, t.level.get l = lastWritten l (s.level.get l) ms
  dir : ∀ l, s.dir.get l = .out → t.dir.get l = .out
  params : t.params = s.params
  fault : t.fault = s.fault
  refused : s.refused ≠ none → t.refused ≠ none

theorem Extends.refl (s : State) : Extends [] s s :=
  ⟨by simp, fun _ => rfl, fun _ h => h, rfl, rfl, id⟩

theorem Extends.trans {ms ns : List MicroOp} {s t u : State} (h : Extends ms s t) (k : Extends ns t u) :
    Extends (ms ++ ns) s u where
  trace := by rw [k.trace, h.trace, List.append_assoc]
  level l := by rw [k.level, h.level, lastWritten_append]
  dir l hl := k.dir l (h.dir l hl)
  params := k.params.trans h.params
  fault := k.fault.trans h.fault
  refused hs := k.refused (h.refused hs)

theorem perform_extends {site : Site} {m : MicroOp} {s t : State} (h : perform site m s = .next t) :
    Extends [m] s (t.record m) := by
  obtain ⟨-, -, hfault, hrefused, htrace, hparams, -, -, hdir⟩ := perform_frame h
  exact ⟨by simp [htrace], fun l => (perform_level h l :), hdir, hparams, hfault, by simp [hrefused]⟩

theorem runOps_extends {c : Context} {i : Instr} {k : Nat} {ms : List MicroOp} {s t : State}
    (h : runOps c i k ms s = .next t) : Extends ms s t := by
  induction ms generalizing k s with
  | nil => cases h; exact .refl _
  | cons m ms ih =>
    rw [runOps_cons, andThen_eq_next] at h
    obtain ⟨u, hu, ht⟩ := h
    obtain ⟨v, hv, rfl⟩ := performTraced_next.mp hu
    exact (perform_extends hv).trans (ih ht)

/-- Moving a record on changes nothing of what `Extends` speaks of. -/
theorem extends_setInfl {ms : List MicroOp} {s t : State} (h : Extends ms s t) (c : Context) (r : Option InFlight) :
    Extends ms s (t.setInfl c r) := by
  obtain ⟨htrace, hlevel, hdir, hparams, hfault, hrefused⟩ := h
  constructor <;> simpa

theorem engineStep_extends {s t : State} (h : engineStep s = .next t) : ∃ ms, Extends ms s t := by
  obtain ⟨-, rfl⟩ | ⟨_, -, -, rfl⟩ | ⟨r, m, u, -, -, hu, rfl⟩ := engineStep_next h
  · exact ⟨[], .refl _⟩
  · exact ⟨[], extends_setInfl (.refl s) _ _⟩
  · exact ⟨[m], extends_setInfl (perform_extends hu) _ _⟩

/-- The state with a move delivered: the moves still to come and the caller, nothing else (R165, R166; log 1, log 2). -/
@[simp] def State.afterMove (s : State) (moves : List HostMove) (caller : Context) : State :=
  { s with host := moves, caller := caller }

theorem extends_afterMove (s : State) (moves : List HostMove) (c : Context) : Extends [] s (s.afterMove moves c) :=
  ⟨by simp, fun _ => rfl, fun _ h => h, rfl, rfl, id⟩

/-- Every delivery is of the state with the move delivered; an operation is issued or called only when its context's
`Issue` is enabled (R165 to R168). -/
theorem deliver_cases (s : State) : ∃ moves c,
    deliver s = .idle (s.afterMove moves c) ∨
      deliver s = .engine (s.afterMove moves c) ∨
      (∃ r, deliver s = .reserved c r (s.afterMove moves s.caller)) ∨
      (∃ i, issueEnabled c s = true ∧ deliver s = .issue c i (s.afterMove moves c)) ∨
      ∃ i, issueEnabled c s = true ∧ deliver s = .call i (s.afterMove moves c) := by
  unfold deliver
  split
  next =>
    obtain ⟨-, h⟩ | ⟨-, h⟩ := engineTurn_cases s
    · exact ⟨s.host, s.caller, .inl h⟩
    · exact ⟨s.host, s.caller, .inr (.inl h)⟩
  next rest _ =>
    obtain ⟨-, h⟩ | ⟨-, h⟩ := engineTurn_cases { s with host := rest }
    · exact ⟨rest, s.caller, .inl h⟩
    · exact ⟨rest, s.caller, .inr (.inl h)⟩
  next c w rest _ =>
    split
    next he =>
      cases decode w with
      | ok i => exact ⟨rest, c, .inr (.inr (.inr (.inl ⟨i, he, rfl⟩)))⟩
      | error r => exact ⟨rest, c, .inr (.inr (.inl ⟨r, rfl⟩))⟩
    next => exact ⟨s.host, s.caller, .inr (.inl rfl)⟩
  next c w rest _ =>
    split
    next he =>
      cases decode w with
      | ok i => exact ⟨rest, c, .inr (.inr (.inr (.inr ⟨i, he, rfl⟩)))⟩
      | error r => exact ⟨rest, c, .inr (.inr (.inl ⟨r, rfl⟩))⟩
    next => exact ⟨s.host, s.caller, .inr (.inl rfl)⟩

/-- An admitted `Issue` makes the record at STEP 0 (R166). -/
theorem issue_next {c : Context} {i : Instr} {s t : State} (h : issue c i s = .next t) :
    linesConfigured (linesNeeded i) s = true ∧ t = s.setInfl c (some ⟨i, 0⟩) := by
  unfold issue at h
  split at h
  next hl => cases h; exact ⟨hl, rfl⟩
  next => cases h

/-- What a step that answers a next state has done: nothing but take a move; an engine step; a refusal; an admitted issue
of an enabled context; a called operation of an enabled context (R29, R162, R165, R166). -/
theorem step_next {s t : State} (h : step s = .next t) : s.fault = none ∧ ∃ moves c,
    t = s.afterMove moves c ∨
      engineStep (s.afterMove moves c) = .next t ∨
      (∃ r, t = (s.afterMove moves c).refuse r) ∨
      (∃ i, issueEnabled c s = true ∧ linesConfigured (linesNeeded i) s = true ∧
        t = (s.afterMove moves c).setInfl c (some ⟨i, 0⟩)) ∨
      ∃ i, issueEnabled c s = true ∧ exec i (s.afterMove moves c) = .next t := by
  unfold step at h
  split at h
  next => cases h
  next hf =>
    refine ⟨hf, ?_⟩
    obtain ⟨moves, c, hd | hd | ⟨r, hd⟩ | ⟨i, he, hd⟩ | ⟨i, he, hd⟩⟩ := deliver_cases s <;> rw [hd] at h
    · cases h; exact ⟨moves, c, .inl rfl⟩
    · exact ⟨moves, c, .inr (.inl h)⟩
    · cases h; exact ⟨moves, s.caller, .inr (.inr (.inl ⟨r, rfl⟩))⟩
    · obtain ⟨hl, rfl⟩ := issue_next h
      exact ⟨moves, c, .inr (.inr (.inr (.inl ⟨i, he, hl, rfl⟩)))⟩
    · exact ⟨moves, c, .inr (.inr (.inr (.inr ⟨i, he, h⟩)))⟩

/-- Every step that answers a next state starts from no fault mark and performs some list of micro-operations. -/
theorem step_extends {s t : State} (h : step s = .next t) : s.fault = none ∧ ∃ ms, Extends ms s t := by
  obtain ⟨hf, moves, c, hcase⟩ := step_next h
  have hmove := extends_afterMove s moves c
  refine ⟨hf, ?_⟩
  obtain rfl | he | ⟨r, rfl⟩ | ⟨i, -, -, rfl⟩ | ⟨i, -, he⟩ := hcase
  · exact ⟨[], hmove⟩
  · obtain ⟨ms, hms⟩ := engineStep_extends he
    exact ⟨[] ++ ms, hmove.trans hms⟩
  · exact ⟨[], { hmove with refused := by simp }⟩
  · exact ⟨[], extends_setInfl hmove c _⟩
  · exact ⟨_, hmove.trans (runOps_extends (exec_next he).2.2)⟩

/-- Settles O20: each micro-operation's own line, and the frame of all three. -/
theorem microOpsWriteTheirOwnLine : Obligations.MicroOpsWriteTheirOwnLine := by
  unfold Obligations.MicroOpsWriteTheirOwnLine
  intro site m s t h
  obtain ⟨hmain, hirq, hfault, hrefused, htrace, hparams, hhost, hcaller, -⟩ := perform_frame h
  refine ⟨fun l => ?_, fun l => ?_, hmain, hirq, hfault, hrefused, htrace, hparams, hhost, hcaller⟩
  · rw [perform_level h]
    cases m <;> rfl
  · rw [perform_dir h]
    cases m <;> simp

/-- Settles O46: a step only appends to the trace and only sets the mark REFUSED. -/
theorem stepKeepsMarksAndHistory : Obligations.StepKeepsMarksAndHistory := by
  unfold Obligations.StepKeepsMarksAndHistory
  intro s t h
  obtain ⟨hf, ms, hext⟩ := step_extends h
  exact ⟨hext.params, hext.refused, ⟨ms, hext.trace.symm⟩, hf, hext.fault.trans hf⟩

/-- Settles O49: every step writes the levels its own micro-operations give and appends just these to the trace. -/
theorem levelsAreTheLastWritten : Obligations.LevelsAreTheLastWritten := by
  unfold Obligations.LevelsAreTheLastWritten
  refine ⟨fun _ _ _ _ => rfl, fun s t hs h l => ?_⟩
  obtain ⟨-, ms, hext⟩ := step_extends h
  rw [hext.level, hext.params, hext.trace, lastWritten_append, hs]


end Sys2Proof.Machine
end

section
/-! SUPPORT. What the lists write, and the invariant of R37: admission covers every line a list writes, so every step keeps
the invariant (R37, R161, R166). -/

namespace Sys2Proof.Machine

open Sys2Proof.Config

/-- The list holds nothing but delays and writes of the given lines. -/
def WritesOnly (lines : List Line) (ms : List MicroOp) : Prop :=
  ∀ m ∈ ms, m = .delay ∨ ∃ l ∈ lines, ∃ v, m = .lineWrite l v

theorem WritesOnly.append {lines : List Line} {ms ns : List MicroOp} (hm : WritesOnly lines ms)
    (hn : WritesOnly lines ns) : WritesOnly lines (ms ++ ns) :=
  fun m h => (List.mem_append.mp h).elim (hm m) (hn m)

theorem WritesOnly.mono {lines lines' : List Line} {ms : List MicroOp} (hm : WritesOnly lines ms)
    (h : lines ⊆ lines') : WritesOnly lines' ms :=
  fun m hmem => (hm m hmem).imp_right fun ⟨l, hl, hv⟩ => ⟨l, h hl, hv⟩

theorem WritesOnly.mem_lines {lines : List Line} {ms : List MicroOp} (h : WritesOnly lines ms) {l : Line} {v : Bool}
    (hmem : MicroOp.lineWrite l v ∈ ms) : l ∈ lines := by
  obtain hd | ⟨k, hk, w, hw⟩ := h _ hmem
  · cases hd
  · cases hw; exact hk

theorem WritesOnly.lineDir_not_mem {lines : List Line} {ms : List MicroOp} (h : WritesOnly lines ms) (l : Line) :
    MicroOp.lineDir l ∉ ms := by
  intro hmem
  obtain hd | ⟨_, _, _, hw⟩ := h _ hmem
  · cases hd
  · cases hw

theorem writesOnly_setOps (l : Line) (v : Bool) : WritesOnly (setLines l) (setOps l v) := by
  simp [WritesOnly, setOps, setLines]

theorem writesOnly_pulseOps : WritesOnly pulseLines pulseOps := by
  simp [WritesOnly, pulseOps, pulseLines]

theorem writesOnly_shiftOps (b : Byte) : WritesOnly shiftLines (shiftOps b) := by
  intro m hm
  obtain ⟨v, -, hv⟩ := List.mem_flatMap.mp hm
  obtain rfl | hp := List.mem_cons.mp hv
  · exact .inr ⟨.data, by decide, v, rfl⟩
  · exact writesOnly_pulseOps.mono (by decide) m hp

theorem writesOnly_showOps (g q : Byte) : WritesOnly frameLines (showOps g q) := by
  have hlatch : ∀ v, WritesOnly frameLines [.lineWrite .latch v] := by simp [WritesOnly, frameLines]
  have hshift : ∀ b, WritesOnly frameLines (shiftOps b) := fun b => (writesOnly_shiftOps b).mono (by decide)
  exact (hlatch false).append (((hshift q).append (hshift g)).append (hlatch true))

/-- Every line an operation's list writes is among those its admission asks for (R161). -/
theorem mem_linesNeeded_of_lineWrite_mem {p : Params} {i : Instr} {l : Line} {v : Bool}
    (h : MicroOp.lineWrite l v ∈ microOps p i) : l ∈ linesNeeded i := by
  cases i with
  | init => simp [microOps, initOps] at h
  | showDigit g q => exact (writesOnly_showOps g q).mem_lines h
  | clr => exact (writesOnly_showOps 0xFF p.clrPosition).mem_lines h
  | shift b => exact (writesOnly_shiftOps b).mem_lines h
  | pulse => exact writesOnly_pulseOps.mem_lines h
  | setLine k w => exact (writesOnly_setOps k w).mem_lines h
  | cfgout k => simp [microOps, cfgoutOps] at h

theorem linesConfigured_iff {lines : List Line} {s : State} :
    linesConfigured lines s = true ↔ ∀ l ∈ lines, s.dir.get l = .out := by
  simp [linesConfigured]

theorem writesConfigured_nil (s : State) : WritesConfigured [] s :=
  fun _ _ h => absurd h List.not_mem_nil

/-- An admitted operation writes outputs alone (R161, R37 a). -/
theorem writesConfigured_microOps {p : Params} {i : Instr} {s : State}
    (h : linesConfigured (linesNeeded i) s = true) : WritesConfigured (microOps p i) s :=
  fun l _ hmem => linesConfigured_iff.mp h l (mem_linesNeeded_of_lineWrite_mem hmem)

@[simp] theorem length_shiftOps (b : Byte) : (shiftOps b).length = 32 := rfl

@[simp] theorem length_showOps (g q : Byte) : (showOps g q).length = 66 := by
  simp [showOps]

/-- No list is empty, and none is longer than a frame's (R140, R148). -/
theorem length_microOps (p : Params) (i : Instr) : 0 < (microOps p i).length ∧ (microOps p i).length ≤ 66 := by
  cases i <;> simp [microOps, initOps, clrOps, pulseOps, setOps, cfgoutOps]

theorem State.infl_setInfl_eq (s : State) (c k : Context) (r : Option InFlight) :
    (s.setInfl c r).infl k = if c = k then r else s.infl k := by
  cases c <;> cases k <;> rfl

theorem perform_infl {site : Site} {m : MicroOp} {s t : State} (h : perform site m s = .next t) (c : Context) :
    t.infl c = s.infl c := by
  obtain ⟨hmain, hirq, -⟩ := perform_frame h
  cases c <;> assumption

theorem runOps_infl {c : Context} {i : Instr} {k : Nat} {ms : List MicroOp} {s t : State}
    (h : runOps c i k ms s = .next t) (c' : Context) : t.infl c' = s.infl c' := by
  obtain ⟨hmain, hirq, -⟩ := runOps_frame h
  cases c' <;> assumption

/-- An enabled `Issue` finds its context free, and IRQ free (R166). -/
theorem issueEnabled_free {c : Context} {s : State} (h : issueEnabled c s = true) :
    s.infl c = none ∧ s.inflIrq = none := by
  cases c <;> simp_all [issueEnabled]

/-- An exclusive host issues with nothing in flight (R166, R196). -/
theorem issueEnabled_idle {c : Context} {s : State} (h : issueEnabled c s = true)
    (hx : s.params.hostExclusive = true) : Idle s := by
  cases c <;> simp_all [issueEnabled, Idle]

/-- The record that moves on stands before the end of the same operation's list (R27, R29). -/
theorem nextRecord_some {p : Params} {r r' : InFlight} (h : nextRecord p r = some r') :
    r'.op = r.op ∧ r'.step < (microOps p r'.op).length := by
  unfold nextRecord at h
  split at h
  next hlt => cases h; exact ⟨rfl, hlt⟩
  next => cases h

theorem RecordOk.of_extends {ms : List MicroOp} {s t : State} {r : InFlight} (he : Extends ms s t)
    (h : RecordOk s r) : RecordOk t r := by
  obtain ⟨hstep, hlines⟩ := h
  rw [linesConfigured_iff] at hlines
  exact ⟨he.params ▸ hstep, linesConfigured_iff.mpr fun l hl => he.dir l (hlines l hl)⟩

theorem Inv.recordOk {s : State} (hs : Inv s) {c : Context} {r : InFlight} (h : s.infl c = some r) : RecordOk s r := by
  cases c with
  | main => exact hs.mainOk r h
  | irq => exact hs.irqOk r h

/-- The invariant after any list of writes to outputs: new records have to be sound in the old state, and exclusion has to
hold. -/
theorem Inv.of_extends {ms : List MicroOp} {s t : State} (hs : Inv s) (he : Extends ms s t)
    (hw : WritesConfigured ms s) (hr : ∀ c r, t.infl c = some r → RecordOk s r)
    (hx : s.params.hostExclusive = true → t.inflMain = none ∨ t.inflIrq = none) : Inv t where
  traceConfigured l v hmem := by
    rw [he.trace] at hmem
    exact he.dir l ((List.mem_append.mp hmem).elim (hs.traceConfigured l v) (hw l v))
  mainOk r h := (hr .main r h).of_extends he
  irqOk r h := (hr .irq r h).of_extends he
  exclusive h := hx (he.params ▸ h)

/-- The case where no context gains a record. -/
theorem Inv.of_extends_same_infl {ms : List MicroOp} {s t : State} (hs : Inv s) (he : Extends ms s t)
    (hw : WritesConfigured ms s) (hi : ∀ c, t.infl c = s.infl c) : Inv t := by
  refine hs.of_extends he hw (fun c r h => hs.recordOk ((hi c).symm.trans h)) fun h => ?_
  have hmain : t.inflMain = s.inflMain := hi .main
  have hirq : t.inflIrq = s.inflIrq := hi .irq
  rw [hmain, hirq]
  exact hs.exclusive h

/-- The invariant after the active record has moved on or been removed. -/
theorem Inv.of_extends_setInfl {ms : List MicroOp} {s u : State} {c : Context} {r : InFlight} {r' : Option InFlight}
    (hs : Inv s) (he : Extends ms s u) (hw : WritesConfigured ms s) (hi : ∀ k, u.infl k = s.infl k)
    (hc : s.infl c = some r) (hr : ∀ q, r' = some q → RecordOk s q) : Inv (u.setInfl c r') := by
  refine hs.of_extends (extends_setInfl he c r') hw (fun k q hq => ?_) fun hx => ?_
  · rw [State.infl_setInfl_eq, hi] at hq
    split at hq
    · exact hr q hq
    · exact hs.recordOk hq
  · have hfree : ∀ k, s.infl k = none → (u.setInfl c r').infl k = none := by
      intro k hk
      rw [State.infl_setInfl_eq, if_neg (by rintro rfl; simp_all), hi, hk]
    exact (hs.exclusive hx).imp (hfree .main) (hfree .irq)

theorem Inv.afterMove {s : State} (hs : Inv s) (moves : List HostMove) (c : Context) : Inv (s.afterMove moves c) :=
  hs.of_extends_same_infl (extends_afterMove s moves c) (writesConfigured_nil s) (fun k => by cases k <;> rfl)

theorem engineStep_inv {s t : State} (hs : Inv s) (h : engineStep s = .next t) : Inv t := by
  obtain ⟨-, rfl⟩ | ⟨r, hr, -, rfl⟩ | ⟨r, m, u, hr, hm, hu, rfl⟩ := engineStep_next h
  · exact hs
  · exact hs.of_extends_setInfl (.refl s) (writesConfigured_nil s) (fun _ => rfl) hr (by simp)
  · obtain ⟨-, hlines⟩ := hs.recordOk hr
    have hw : WritesConfigured [m] s := fun l v hmem =>
      writesConfigured_microOps hlines l v (List.mem_singleton.mp hmem ▸ List.mem_of_getElem? hm)
    refine hs.of_extends_setInfl (perform_extends hu) hw (fun k => (perform_infl hu k :)) hr fun q hq => ?_
    obtain ⟨hop, hlt⟩ := nextRecord_some hq
    exact ⟨hlt, hop ▸ hlines⟩

theorem exec_inv {i : Instr} {s t : State} (hs : Inv s) (h : exec i s = .next t) : Inv t := by
  obtain ⟨-, hlines, hrun⟩ := exec_next h
  exact hs.of_extends_same_infl (runOps_extends hrun) (writesConfigured_microOps hlines) (runOps_infl hrun)

/-- An admitted issue of an enabled context makes a sound record, and for an exclusive host the only one (R166, R196). -/
theorem issue_inv {c : Context} {i : Instr} {s : State} (hs : Inv s) (he : issueEnabled c s = true)
    (hl : linesConfigured (linesNeeded i) s = true) : Inv (s.setInfl c (some ⟨i, 0⟩)) := by
  refine hs.of_extends (extends_setInfl (.refl s) c _) (writesConfigured_nil s) (fun k q hq => ?_) fun hx => ?_
  · rw [State.infl_setInfl_eq] at hq
    split at hq
    · cases hq; exact ⟨(length_microOps s.params i).1, hl⟩
    · exact hs.recordOk hq
  · obtain ⟨hmain, hirq⟩ := issueEnabled_idle he hx
    cases c with
    | main => exact .inr hirq
    | irq => exact .inl hmain

/-- Settles O47, by what a step can do: the engine and a call write admitted lines alone, an issue makes a sound record. -/
theorem invariantIsKeptByEveryStep : Obligations.InvariantIsKeptByEveryStep := by
  unfold Obligations.InvariantIsKeptByEveryStep
  intro s t hs h
  obtain ⟨-, moves, c, hcase⟩ := step_next h
  have hmove : Inv (s.afterMove moves c) := hs.afterMove moves c
  obtain rfl | he | ⟨r, rfl⟩ | ⟨i, hen, hl, rfl⟩ | ⟨i, -, he⟩ := hcase
  · exact hmove
  · exact engineStep_inv hmove he
  · exact ⟨hmove.traceConfigured, hmove.mainOk, hmove.irqOk, hmove.exclusive⟩
  · exact issue_inv hmove hen hl
  · exact exec_inv hmove he

/-- Settles O48: after reset the trace is empty and nothing is in flight. -/
theorem invariantHoldsAtReset : Obligations.InvariantHoldsAtReset := by
  unfold Obligations.InvariantHoldsAtReset
  intro p sr out moves
  exact ⟨writesConfigured_nil _, nofun, nofun, fun _ => .inl rfl⟩

/-- Settles O52: the fields of reset are as R35 says, and with no move and nothing in flight the step delivers nothing. -/
theorem resetLeavesTheBlockIdle : Obligations.ResetLeavesTheBlockIdle := by
  unfold Obligations.ResetLeavesTheBlockIdle
  rintro p sr out s rfl
  exact ⟨rfl, rfl, rfl, ⟨rfl, rfl⟩, ⟨rfl, rfl⟩, rfl, rfl, rfl, rfl⟩

end Sys2Proof.Machine
end

section
/-! SUPPORT. What an operation leaves unchanged, read off the micro-operations its list does not hold (R22, R29, R54 to
R56), and the levels it ends with. -/

namespace Sys2Proof.Machine

/-- The chain moves at a write of CLOCK high alone (R54). -/
theorem perform_sr {site : Site} {m : MicroOp} {s t : State} (h : perform site m s = .next t)
    (hm : m ≠ .lineWrite .clock true) : t.sr = s.sr := by
  cases m with
  | lineWrite l v =>
    rw [lineWrite_next h]
    exact if_neg fun ⟨hl, hv, _⟩ => hm (by rw [hl, hv])
  | lineDir l => cases h; rfl
  | delay => cases h; rfl

/-- The outputs move at a write of LATCH high alone (R55). -/
theorem perform_out {site : Site} {m : MicroOp} {s t : State} (h : perform site m s = .next t)
    (hm : m ≠ .lineWrite .latch true) : t.out = s.out := by
  cases m with
  | lineWrite l v =>
    rw [lineWrite_next h]
    exact if_neg fun ⟨hl, hv, _⟩ => hm (by rw [hl, hv])
  | lineDir l => cases h; rfl
  | delay => cases h; rfl

section

variable {c : Context} {i : Instr} {k : Nat} {ms : List MicroOp} {s t : State}

/-- What every micro-operation of a list keeps, the whole list keeps; `f` reads no trace. -/
theorem runOps_keeps {α : Type} {f : State → α} (htrace : ∀ (u : State) (m : MicroOp), f (u.record m) = f u)
    (hkeep : ∀ m ∈ ms, ∀ site u v, perform site m u = .next v → f v = f u)
    (h : runOps c i k ms s = .next t) : f t = f s := by
  induction ms generalizing k s with
  | nil => cases h; rfl
  | cons m ms ih =>
    rw [runOps_cons, andThen_eq_next] at h
    obtain ⟨u, hu, ht⟩ := h
    obtain ⟨v, hv, rfl⟩ := performTraced_next.mp hu
    rw [ih (fun n hn => hkeep n (List.mem_cons_of_mem m hn)) ht, htrace, hkeep m List.mem_cons_self _ _ _ hv]

theorem runOps_sr (h : runOps c i k ms s = .next t) (hm : MicroOp.lineWrite .clock true ∉ ms) : t.sr = s.sr :=
  runOps_keeps (f := State.sr) (fun _ _ => rfl)
    (fun _ hmem _ _ _ hp => perform_sr hp (ne_of_mem_of_not_mem hmem hm)) h

theorem runOps_out (h : runOps c i k ms s = .next t) (hm : MicroOp.lineWrite .latch true ∉ ms) : t.out = s.out :=
  runOps_keeps (f := State.out) (fun _ _ => rfl)
    (fun _ hmem _ _ _ hp => perform_out hp (ne_of_mem_of_not_mem hmem hm)) h

theorem runOps_dir_get (h : runOps c i k ms s = .next t) {l : Line} (hm : MicroOp.lineDir l ∉ ms) :
    t.dir.get l = s.dir.get l :=
  runOps_keeps (f := fun u => u.dir.get l) (fun _ _ => rfl)
    (fun _ hmem _ _ _ hp => (perform_dir hp l).trans (if_neg (ne_of_mem_of_not_mem hmem hm))) h

theorem runOps_dir {lines : List Line} (h : runOps c i k ms s = .next t) (hw : WritesOnly lines ms) : t.dir = s.dir :=
  PerLine.ext_get fun l => runOps_dir_get h (hw.lineDir_not_mem l)

/-- A list that has no effect on any level leaves all of them. -/
theorem runOps_level (h : runOps c i k ms s = .next t) (hl : ∀ l v, lastWritten l v ms = v) : t.level = s.level :=
  PerLine.ext_get fun l => ((runOps_extends h).level l).trans (hl l _)

end

/-- Settles O44: the frame of every list, and per operation the micro-operations its list does not hold. -/
theorem operationFrame : Obligations.OperationFrame := by
  unfold Obligations.OperationFrame
  intro i s t h
  have hrun := (exec_next h).2.2
  have hlevel := (runOps_extends hrun).level
  obtain ⟨hmain, hirq, hfault, hrefused, htrace, hparams, hhost, hcaller, -⟩ := runOps_frame hrun
  refine ⟨⟨hmain, hirq, hfault, hrefused, hparams, hhost, hcaller, htrace⟩, ?_⟩
  cases i with
  | init =>
    exact ⟨runOps_level hrun fun _ _ => rfl, runOps_sr hrun (by simp [microOps, initOps]),
      runOps_out hrun (by simp [microOps, initOps])⟩
  | cfgout l =>
    refine ⟨runOps_level hrun fun _ _ => rfl, runOps_sr hrun (by simp [microOps, cfgoutOps]),
      runOps_out hrun (by simp [microOps, cfgoutOps]), fun k hk => runOps_dir_get hrun ?_⟩
    simpa [microOps, cfgoutOps] using hk
  | setLine l v =>
    have hline : ∀ {k w}, MicroOp.lineWrite k w ∈ setOps l v → l = k := fun hmem =>
      (List.mem_singleton.mp ((writesOnly_setOps l v).mem_lines hmem)).symm
    exact ⟨runOps_dir hrun (writesOnly_setOps l v), fun k hk => (hlevel k).trans (if_neg hk.symm),
      fun hl => runOps_sr hrun fun hmem => hl (hline hmem), fun hl => runOps_out hrun fun hmem => hl (hline hmem)⟩
  | pulse =>
    exact ⟨runOps_dir hrun writesOnly_pulseOps, hlevel .latch, hlevel .data,
      runOps_out hrun (by simp [microOps, pulseOps])⟩
  | shift b =>
    have hout : MicroOp.lineWrite .latch true ∉ shiftOps b := fun hmem =>
      absurd ((writesOnly_shiftOps b).mem_lines hmem) (by decide)
    exact ⟨runOps_dir hrun (writesOnly_shiftOps b), hlevel .latch, runOps_out hrun hout⟩
  | showDigit g q => exact runOps_dir hrun (writesOnly_showOps g q)
  | clr => exact runOps_dir hrun (writesOnly_showOps 0xFF s.params.clrPosition)

/-- The last bit sent is followed by a fall of CLOCK (R120, R130). -/
theorem lastWritten_clock_shiftOps (v : Bool) (b : Byte) : lastWritten .clock v (shiftOps b) = false := rfl

theorem lastWritten_clock_showOps (v : Bool) (g q : Byte) : lastWritten .clock v (showOps g q) = false := by
  unfold showOps
  rw [lastWritten, lastWritten_append, lastWritten_append, lastWritten_clock_shiftOps _ g]
  rfl

/-- Settles O50: in each of the four lists the last write of CLOCK is low. -/
theorem pulsingOperationsEndWithClockLow : Obligations.PulsingOperationsEndWithClockLow := by
  unfold Obligations.PulsingOperationsEndWithClockLow
  intro i s t hi h
  have hclock : t.level.clock = lastWritten .clock s.level.clock (microOps s.params i) :=
    (runOps_extends (exec_next h).2.2).level .clock
  rw [hclock]
  obtain ⟨b, rfl⟩ | ⟨g, q, rfl⟩ | rfl | rfl := hi
  · exact lastWritten_clock_shiftOps _ b
  · exact lastWritten_clock_showOps _ g q
  · exact lastWritten_clock_showOps _ 0xFF s.params.clrPosition
  · rfl

end Sys2Proof.Machine
end

section
/-! SUPPORT. The engine: its step as the active record's micro-operation (R27, R29, R167), the steps that are left to it
(R203), and a called operation as its issue and its engine steps (R165, R166; log 3). -/

namespace Sys2Proof.Machine

open Sys2Proof.Config

theorem activeContext_irq {s : State} (h : s.inflIrq ≠ none) : activeContext s = .irq := by
  simp [activeContext, Option.isSome_iff_ne_none.mpr h]

theorem activeContext_main {s : State} (h : s.inflIrq = none) : activeContext s = .main := by
  simp [activeContext, h]

/-- The step at an active record that stands before the end of its list: that micro-operation, then the record moved on. -/
theorem engineStep_of_record {s : State} {c : Context} {r : InFlight} {m : MicroOp} (hc : activeContext s = c)
    (hr : s.infl c = some r) (hm : (microOps s.params r.op)[r.step]? = some m) :
    engineStep s =
      andThen (performTraced ⟨c, r.op, r.step⟩ m s) fun t => .next (t.setInfl c (nextRecord s.params r)) := by
  subst hc
  simp [engineStep, hr, hm]

theorem engineStep_eq_next_iff {s t : State} {c : Context} {r : InFlight} {m : MicroOp} (hc : activeContext s = c)
    (hr : s.infl c = some r) (hm : (microOps s.params r.op)[r.step]? = some m) :
    engineStep s = .next t ↔
      ∃ u, perform ⟨c, r.op, r.step⟩ m s = .next u ∧ t = (u.record m).setInfl c (nextRecord s.params r) := by
  rw [engineStep_of_record hc hr hm, andThen_eq_next]
  simp only [performTraced_next, Host.Outcome.next.injEq]
  constructor
  · rintro ⟨_, ⟨u, hu, rfl⟩, rfl⟩
    exact ⟨u, hu, rfl⟩
  · rintro ⟨u, hu, rfl⟩
    exact ⟨_, ⟨u, hu, rfl⟩, rfl⟩

theorem engineStep_eq_fault_iff {s : State} {f : Fault} {c : Context} {r : InFlight} {m : MicroOp}
    (hc : activeContext s = c) (hr : s.infl c = some r) (hm : (microOps s.params r.op)[r.step]? = some m) :
    engineStep s = .fault f ↔ perform ⟨c, r.op, r.step⟩ m s = .fault f := by
  rw [engineStep_of_record hc hr hm]
  unfold performTraced
  cases perform ⟨c, r.op, r.step⟩ m s <;> simp

/-- Settles O9: the engine's step is the active record's micro-operation, and IRQ's record is active while there is one. -/
theorem engineServesTheInterruptContextFirst : Obligations.EngineServesTheInterruptContextFirst := by
  unfold Obligations.EngineServesTheInterruptContextFirst
  intro s r m hm
  refine ⟨fun hirq => ?_, fun hirq hmain => ?_⟩
  · have hc : activeContext s = .irq := activeContext_irq (by simp [hirq])
    refine ⟨fun t => (engineStep_eq_next_iff hc hirq hm).trans (exists_congr fun u => and_congr_right fun hu => ?_),
      fun f => engineStep_eq_fault_iff hc hirq hm⟩
    obtain ⟨hinfl, -, -, -, htrace, -⟩ := perform_frame hu
    rw [← htrace, ← hinfl]
    exact ⟨fun ht => ⟨ht, ht ▸ rfl⟩, And.left⟩
  · have hc : activeContext s = .main := activeContext_main hirq
    refine ⟨fun t => (engineStep_eq_next_iff hc hmain hm).trans (exists_congr fun u => and_congr_right fun hu => ?_),
      fun f => engineStep_eq_fault_iff hc hmain hm⟩
    obtain ⟨-, hinfl, -, -, htrace, -⟩ := perform_frame hu
    rw [← htrace]
    exact ⟨fun ht => ⟨ht, ht ▸ hinfl.trans hirq⟩, And.left⟩

/-! The steps left to what is in flight (R203). -/

/-- The micro-operations a record has still to perform. -/
def opsLeft (p : Params) : Option InFlight → Nat
  | none => 0
  | some r => (microOps p r.op).length - r.step

/-- The micro-operations the engine has still to perform, in both contexts. -/
def State.opsLeft (s : State) : Nat := Machine.opsLeft s.params s.inflMain + Machine.opsLeft s.params s.inflIrq

theorem opsLeft_le (p : Params) (r : Option InFlight) : opsLeft p r ≤ 66 := by
  cases r with
  | none => exact Nat.zero_le _
  | some r => exact (Nat.sub_le _ _).trans (length_microOps p r.op).2

theorem State.opsLeft_le (s : State) : s.opsLeft ≤ 132 :=
  Nat.add_le_add (Machine.opsLeft_le s.params s.inflMain) (Machine.opsLeft_le s.params s.inflIrq)

/-- A record that moves on has one micro-operation less to perform (R27, R29). -/
theorem opsLeft_nextRecord {p : Params} {r : InFlight} (h : r.step < (microOps p r.op).length) :
    opsLeft p (nextRecord p r) + 1 = opsLeft p (some r) := by
  unfold nextRecord
  split <;> simp only [opsLeft] <;> omega

theorem State.opsLeft_setInfl {s : State} {c : Context} {r : InFlight} {r' : Option InFlight}
    (hc : s.infl c = some r) (hr : Machine.opsLeft s.params r' + 1 = Machine.opsLeft s.params (some r)) :
    (s.setInfl c r').opsLeft + 1 = s.opsLeft := by
  cases c <;> simp only [State.infl_main, State.infl_irq] at hc <;> simp [State.opsLeft, hc] <;> omega

theorem perform_not_refused {site : Site} {m : MicroOp} {s : State} {x : Refusal} : perform site m s ≠ .refused x := by
  cases m with
  | lineWrite l v => exact lineWrite_not_refused
  | lineDir l => nofun
  | delay => nofun

theorem exists_active_record {s : State} (hi : ¬ Idle s) : ∃ r, s.infl (activeContext s) = some r := by
  rw [← Option.ne_none_iff_exists']
  by_cases hirq : s.inflIrq = none
  · rw [activeContext_main hirq]
    exact fun hmain => hi ⟨hmain, hirq⟩
  · rw [activeContext_irq hirq]
    exact hirq

/-- A sound record in flight has a micro-operation left (R27). -/
theorem Inv.opsLeft_pos {s : State} (hs : Inv s) (hi : ¬ Idle s) : 0 < s.opsLeft := by
  obtain ⟨r, hr⟩ := exists_active_record hi
  rw [← State.opsLeft_setInfl hr (opsLeft_nextRecord (hs.recordOk hr).1)]
  exact Nat.succ_pos _

/-- With something in flight and the invariant, the engine's step faults or leaves one micro-operation less (R27, R203). -/
theorem engineStep_progress {s : State} (hs : Inv s) (hi : ¬ Idle s) :
    (∃ f, engineStep s = .fault f) ∨
      ∃ t, engineStep s = .next t ∧ t.fault = s.fault ∧ t.host = s.host ∧ t.opsLeft + 1 = s.opsLeft := by
  obtain ⟨r, hr⟩ := exists_active_record hi
  obtain ⟨hstep, -⟩ := hs.recordOk hr
  have hm := List.getElem?_eq_getElem hstep
  cases hp : perform ⟨activeContext s, r.op, r.step⟩ (microOps s.params r.op)[r.step] s with
  | fault f => exact .inl ⟨f, (engineStep_eq_fault_iff rfl hr hm).mpr hp⟩
  | refused x => exact absurd hp perform_not_refused
  | next u =>
    refine .inr ⟨_, (engineStep_eq_next_iff rfl hr hm).mpr ⟨u, hp, rfl⟩, ?_⟩
    obtain ⟨hmain, hirq, hfault, -, -, hparams, hhost, -, -⟩ := perform_frame hp
    have hleft : (u.record (microOps s.params r.op)[r.step]).opsLeft = s.opsLeft := by
      simp [State.opsLeft, hmain, hirq, hparams]
    refine ⟨by simp [hfault], by simp [hhost], hleft ▸ State.opsLeft_setInfl ((perform_infl hp _).trans hr) ?_⟩
    simpa [hparams] using opsLeft_nextRecord hstep

theorem engineTurn_of_not_idle {s : State} (hi : ¬ Idle s) : engineTurn s = .engine s := by
  have hidle : s.idle = false := by
    simpa [State.idle, ← Option.ne_none_iff_isSome] using hi
  simp [engineTurn, hidle]

/-- With no move of the host's and something in flight, a step is the engine's (R203). -/
theorem step_eq_engineStep {s : State} (hf : s.fault = none) (hh : s.host = []) (hi : ¬ Idle s) :
    step s = engineStep s := by
  have hd : deliver s = .engine s := by simp only [deliver, hh, engineTurn_of_not_idle hi]
  simp only [step, hf, hd]

/-- As many steps as there are micro-operations left bring what is in flight to its end, or to a fault (R27, R203). -/
theorem stepsFrom_comes_to_an_end {n : Nat} {s : State} (hs : Inv s) (hf : s.fault = none) (hh : s.host = [])
    (hn : s.opsLeft ≤ n) :
    ∃ k, k ≤ n ∧ ((∃ t, stepsFrom k s = .next t ∧ Idle t) ∨ ∃ f, stepsFrom k s = .fault f) := by
  induction n generalizing s with
  | zero =>
    have hi : Idle s := by_contra fun hi => absurd (hs.opsLeft_pos hi) (by omega)
    exact ⟨0, Nat.le_refl 0, .inl ⟨s, rfl, hi⟩⟩
  | succ n ih =>
    by_cases hi : Idle s
    · exact ⟨0, Nat.zero_le _, .inl ⟨s, rfl, hi⟩⟩
    have hstep := step_eq_engineStep hf hh hi
    obtain ⟨f, hfault⟩ | ⟨t, hnext, htf, hth, hleft⟩ := engineStep_progress hs hi
    · exact ⟨1, by omega, .inr ⟨f, by simp [stepsFrom, hstep, hfault]⟩⟩
    · obtain ⟨k, hk, hend⟩ := ih (engineStep_inv hs hnext) (htf.trans hf) (hth.trans hh) (by omega)
      refine ⟨k + 1, by omega, ?_⟩
      simpa only [stepsFrom, hstep, hnext, andThen_next] using hend

/-- Settles O51: every engine step uses up one of the at most 132 micro-operations left. -/
theorem everyOperationComesToAnEnd : Obligations.EveryOperationComesToAnEnd := by
  unfold Obligations.EveryOperationComesToAnEnd
  exact fun s hs hf hh => stepsFrom_comes_to_an_end hs hf hh s.opsLeft_le

end Sys2Proof.Machine
end

section
/-! SUPPORT. A called operation is its issue and its engine steps (R165, R166; log 3): micro-operations do not see the
record they belong to nor the moves to come. -/

namespace Sys2Proof.Machine

open Sys2Proof.Config

/-- The state with the moves to come and the record of one context replaced. -/
def State.inFlight (s : State) (moves : List HostMove) (c : Context) (r : Option InFlight) : State :=
  { s with host := moves }.setInfl c r

theorem State.inFlight_self {s : State} {c : Context} (h : s.infl c = none) : s.inFlight s.host c none = s := by
  rw [State.inFlight, ← h]
  cases c <;> rfl

theorem State.inFlight_setInfl (s : State) (moves : List HostMove) (c : Context) (r r' : Option InFlight) :
    (s.inFlight moves c r).setInfl c r' = s.inFlight moves c r' := by
  cases c <;> rfl

theorem State.inFlight_not_idle (s : State) (moves : List HostMove) (c : Context) (r : InFlight) :
    ¬ Idle (s.inFlight moves c (some r)) := by
  cases c <;> simp [State.inFlight, Idle]

/-- A line write looks neither at the records nor at the moves to come. -/
theorem lineWrite_inFlight (site : Site) (l : Line) (v : Bool) (s : State) (moves : List HostMove) (c : Context)
    (r : Option InFlight) :
    lineWrite site l v (s.inFlight moves c r) =
      andThen (lineWrite site l v s) fun t => .next (t.inFlight moves c r) := by
  cases l with
  | data =>
    simp only [lineWrite, State.inFlight, State.setInfl_level]
    split <;> cases c <;> rfl
  | clock =>
    simp only [lineWrite, State.inFlight, State.setInfl_level]
    split
    · split <;> cases c <;> rfl
    · cases c <;> rfl
  | latch =>
    simp only [lineWrite, State.inFlight, State.setInfl_level]
    split <;> cases c <;> rfl

/-- A traced micro-operation looks neither at the records nor at the moves to come. -/
theorem performTraced_inFlight (site : Site) (m : MicroOp) (s : State) (moves : List HostMove) (c : Context)
    (r : Option InFlight) :
    performTraced site m (s.inFlight moves c r) =
      andThen (performTraced site m s) fun t => .next (t.inFlight moves c r) := by
  have hperform : perform site m (s.inFlight moves c r) =
      andThen (perform site m s) fun t => .next (t.inFlight moves c r) := by
    cases m with
    | lineWrite l v => exact lineWrite_inFlight site l v s moves c r
    | lineDir l => cases c <;> rfl
    | delay => rfl
  simp only [performTraced, hperform, andThen_assoc, andThen_next]
  cases c <;> rfl

/-- The record of operation `i` that has the micro-operations `ms` left, the first of them its `k`-th. -/
def recordAt (i : Instr) (k : Nat) : List MicroOp → Option InFlight
  | [] => none
  | _ :: _ => some ⟨i, k⟩

theorem nextRecord_eq_recordAt {p : Params} {i : Instr} {k : Nat} {m : MicroOp} {ms : List MicroOp}
    (h : (microOps p i).drop k = m :: ms) : nextRecord p ⟨i, k⟩ = recordAt i (k + 1) ms := by
  have hlen : (microOps p i).length - k = ms.length + 1 := by rw [← List.length_drop, h, List.length_cons]
  unfold nextRecord
  cases ms with
  | nil => exact if_neg (by simp only [List.length_nil] at hlen ⊢; omega)
  | cons n ns => exact if_pos (by simp only [List.length_cons] at hlen ⊢; omega)

theorem step_pass {s : State} {rest : List HostMove} (hf : s.fault = none) (hh : s.host = .pass :: rest)
    (hi : ¬ Idle s) : step s = engineStep { s with host := rest } := by
  have hd : deliver s = .engine { s with host := rest } := by
    simp only [deliver, hh]
    exact engineTurn_of_not_idle hi
  simp only [step, hf, hd]

/-- The step of a host that lets the engine serve the record at `k`: micro-operation `k`, and the record at `k + 1`. -/
theorem step_inFlight_pass {c : Context} {i : Instr} {k : Nat} {m : MicroOp} {ms : List MicroOp} {s : State}
    {moves : List HostMove} (hf : s.fault = none) (hirq : s.inflIrq = none)
    (hms : (microOps s.params i).drop k = m :: ms) :
    step (s.inFlight (.pass :: moves) c (some ⟨i, k⟩)) =
      andThen (performTraced ⟨c, i, k⟩ m s) fun t => .next (t.inFlight moves c (recordAt i (k + 1) ms)) := by
  have hpass : step (s.inFlight (.pass :: moves) c (some ⟨i, k⟩)) =
      engineStep (s.inFlight moves c (some ⟨i, k⟩)) := by
    rw [step_pass (rest := moves) (by simpa [State.inFlight]) (by simp [State.inFlight])
      (State.inFlight_not_idle s _ c ⟨i, k⟩)]
    cases c <;> rfl
  have hactive : activeContext (s.inFlight moves c (some ⟨i, k⟩)) = c := by
    cases c with
    | main => exact activeContext_main hirq
    | irq => exact activeContext_irq nofun
  have hparams : (s.inFlight moves c (some ⟨i, k⟩)).params = s.params := by simp [State.inFlight]
  have hm : (microOps s.params i)[k]? = some m := by
    rw [← List.head?_drop, hms, List.head?_cons]
  rw [hpass, engineStep_of_record (r := ⟨i, k⟩) hactive (State.infl_setInfl _ _ _) (by rwa [hparams]), hparams,
    nextRecord_eq_recordAt hms, performTraced_inFlight, andThen_assoc]
  simp only [andThen_next, State.inFlight_setInfl]

/-- A host that lets the engine serve a record to its end sees just the list run from there, fault or not. -/
theorem stepsFrom_inFlight_eq_runOps {c : Context} {i : Instr} {k : Nat} {ms : List MicroOp} {s : State}
    (hf : s.fault = none) (hc : s.infl c = none) (hirq : s.inflIrq = none)
    (hms : (microOps s.params i).drop k = ms) :
    stepsFrom ms.length (s.inFlight (List.replicate ms.length .pass ++ s.host) c (recordAt i k ms)) =
      runOps c i k ms s := by
  induction ms generalizing k s with
  | nil => exact congrArg Host.Outcome.next (State.inFlight_self hc)
  | cons m ms ih =>
    rw [List.length_cons, List.replicate_succ, List.cons_append, stepsFrom, recordAt,
      step_inFlight_pass hf hirq hms, runOps_cons]
    cases hp : performTraced ⟨c, i, k⟩ m s with
    | fault f => rfl
    | refused x => rfl
    | next t =>
      obtain ⟨u, hu, rfl⟩ := performTraced_next.mp hp
      obtain ⟨-, hirq', hfault, -, -, hparams, hhost, -, -⟩ := perform_frame hu
      have hdrop : (microOps u.params i).drop (k + 1) = ms := by
        rw [hparams, ← List.tail_drop, hms, List.tail_cons]
      have hrest := ih (s := u.record m) (hfault.trans hf) ((perform_infl hu c).trans hc) (hirq'.trans hirq) hdrop
      rwa [State.record_host, hhost] at hrest

/-- The step that delivers an enabled issue (R166). -/
theorem step_issue {s : State} {c : Context} {w : CommandWord} {i : Instr} {moves : List HostMove}
    (hf : s.fault = none) (hh : s.host = .issue c w :: moves) (he : issueEnabled c s = true) (hw : decode w = .ok i) :
    step s = issue c i (s.afterMove moves c) := by
  simp [step, hf, deliver, hh, he, hw]

/-- The step that delivers an enabled call (R165). -/
theorem step_call {s : State} {c : Context} {w : CommandWord} {i : Instr} {moves : List HostMove}
    (hf : s.fault = none) (hh : s.host = .call c w :: moves) (he : issueEnabled c s = true) (hw : decode w = .ok i) :
    step s = exec i (s.afterMove moves c) := by
  simp [step, hf, deliver, hh, he, hw]

/-- The issue of an operation and the engine's steps, with no other move of the host's in between, are the operation. -/
theorem issue_then_passes {c : Context} {i : Instr} {s : State} (hf : s.fault = none) (hc : s.infl c = none)
    (hirq : s.inflIrq = none) (hcaller : s.caller = c) :
    andThen (issue c i { s with host := List.replicate (microOps s.params i).length .pass ++ s.host })
        (stepsFrom (microOps s.params i).length) =
      exec i s := by
  obtain ⟨m, ms, hms⟩ := List.exists_cons_of_length_pos (length_microOps s.params i).1
  cases hl : linesConfigured (linesNeeded i) s with
  | false =>
    have hissue : issue c i { s with host := List.replicate (microOps s.params i).length .pass ++ s.host } =
        .fault (.useBeforeInit ⟨c, i, 0⟩) := if_neg (Bool.eq_false_iff.mp hl)
    have hexec : exec i s = .fault (.useBeforeInit ⟨c, i, 0⟩) := by
      simp [exec_eq_runOperation, runOperation, hf, hl, hcaller]
    rw [hissue, hexec, andThen_fault]
  | true =>
    have hissue : issue c i { s with host := List.replicate (microOps s.params i).length .pass ++ s.host } =
        .next (s.inFlight (List.replicate (microOps s.params i).length .pass ++ s.host) c
          (recordAt i 0 (microOps s.params i))) := by
      rw [hms]
      exact if_pos hl
    rw [hissue, andThen_next, stepsFrom_inFlight_eq_runOps hf hc hirq List.drop_zero, exec_eq_runOps i s hf hl, hcaller]

/-- Settles O6: the issue makes the record at STEP 0, and the engine's steps are then the run of the whole list. -/
theorem callIsIssueThenEngineSteps : Obligations.CallIsIssueThenEngineSteps := by
  unfold Obligations.CallIsIssueThenEngineSteps
  intro s c w i rest hf he hw
  obtain ⟨hc, hirq⟩ := issueEnabled_free he
  have hissue := step_issue
    (s := { s with host := .issue c w :: (List.replicate (microOps s.params i).length .pass ++ rest) }) hf rfl he hw
  have hcall := step_call (s := { s with host := .call c w :: rest }) hf rfl he hw
  rw [stepsFrom, hissue, hcall]
  exact issue_then_passes (s := s.afterMove rest c) hf hc hirq rfl

end Sys2Proof.Machine
end

section
/-! SUPPORT. The order on the wire: which bit a list sends at which of its places (R52, R53, R130, R140), and what the
chain holds after the bits sent (R54, R57). -/

namespace Sys2Proof.Machine

/-- From place `k` on the list sends the bit `v`: the DATA write, then a whole pulse (R130). -/
def SendsAt (ms : List MicroOp) (k : Nat) (v : Bool) : Prop :=
  ms[k]? = some (.lineWrite .data v) ∧ ms[k + 1]? = some (.lineWrite .clock true) ∧ ms[k + 2]? = some .delay ∧
    ms[k + 3]? = some (.lineWrite .clock false)

theorem SendsAt.cons {ms : List MicroOp} {k : Nat} {v : Bool} (h : SendsAt ms k v) (m : MicroOp) :
    SendsAt (m :: ms) (k + 1) v := h

/-- Each bit takes four places, so the `n`-th of a list of bits is sent from place `4n` on (R130). -/
theorem sendsAt_bits_append {bits : List Bool} {n : Nat} {v : Bool} (h : bits[n]? = some v) (ms : List MicroOp) :
    SendsAt (bits.flatMap bitOps ++ ms) (4 * n) v := by
  induction bits generalizing n with
  | nil => cases h
  | cons b bits ih =>
    cases n with
    | zero => cases h; exact ⟨rfl, rfl, rfl, rfl⟩
    | succ n => exact ((((ih h).cons _).cons _).cons _).cons _

theorem getElem?_bitsMsbFirst (b : Byte) {i : Nat} (hi : i < 8) : (bitsMsbFirst b)[i]? = some (b.getLsbD (7 - i)) := by
  interval_cases i <;> rfl

/-- The bits of two bytes in wire order are those of the frame they make, bit 15 first (R53, R80). -/
theorem getElem?_bitsMsbFirst_append (p g : Byte) {n : Nat} (hn : n < 16) :
    (bitsMsbFirst p ++ bitsMsbFirst g)[n]? = some (BitVec.getLsbD (w := 16) (p ++ g) (15 - n)) := by
  have hlen : (bitsMsbFirst p).length = 8 := rfl
  rw [getLsbD_twoBytes]
  by_cases h : n < 8
  · rw [List.getElem?_append_left (by omega), getElem?_bitsMsbFirst p h, if_neg (by omega),
      show 15 - n - 8 = 7 - n by omega]
  · rw [List.getElem?_append_right (by omega), hlen, getElem?_bitsMsbFirst g (by omega), if_pos (by omega),
      show 7 - (n - 8) = 15 - n by omega]

/-- A frame's list is the sixteen bits sent, between LATCH low and LATCH high (R140). -/
theorem showOps_eq_bits (g p : Byte) :
    showOps g p =
      .lineWrite .latch false :: ((bitsMsbFirst p ++ bitsMsbFirst g).flatMap bitOps ++ [.lineWrite .latch true]) := by
  rw [List.flatMap_append]
  rfl

/-- After the bits sent the chain holds them, the last in stage 0, each earlier one a stage further on (R54). -/
theorem getLsbD_foldl_chainShift (sr : Frame) (bits : List Bool) {i : Nat} (hi : i < 16) (hb : i < bits.length) :
    some ((bits.foldl chainShift sr).getLsbD i) = bits.reverse[i]? := by
  induction bits using List.reverseRecOn generalizing i with
  | nil => cases hb
  | append_singleton bits v ih =>
    rw [List.foldl_concat, List.reverse_concat, getLsbD_chainShift _ _ _ hi]
    cases i with
    | zero => rfl
    | succ i => exact ih (by omega) (by simpa using hb)

/-- Settles O13: the list is the sixteen bits of `position ‖ segments` sent in order, between two writes of LATCH. -/
theorem showSendsPositionThenSegments : Obligations.ShowSendsPositionThenSegments := by
  unfold Obligations.ShowSendsPositionThenSegments
  intro g p
  refine ⟨length_showOps g p, rfl, ?_, fun n hn => ?_⟩
  · have hlen : (shiftOps p ++ shiftOps g).length = 64 := by simp
    rw [showOps, List.getElem?_cons_succ, List.getElem?_append_right hlen.le, hlen]
    rfl
  · rw [showOps_eq_bits]
    exact (sendsAt_bits_append (getElem?_bitsMsbFirst_append p g hn) _).cons _

/-- Settles O12: the list is the byte's bits sent in order, most significant first. -/
theorem shiftSendsMostSignificantBitFirst : Obligations.ShiftSendsMostSignificantBitFirst := by
  unfold Obligations.ShiftSendsMostSignificantBitFirst
  intro b
  refine ⟨length_shiftOps b, fun i hi => ?_⟩
  rw [shiftOps, ← List.append_nil (List.flatMap ..)]
  exact sendsAt_bits_append (getElem?_bitsMsbFirst b hi) []

/-- Settles O30: sixteen bits sent fill all sixteen stages, the last sent in stage 0. -/
theorem sixteenShiftsFlushTheChain : Obligations.SixteenShiftsFlushTheChain := by
  unfold Obligations.SixteenShiftsFlushTheChain
  intro sr bits hlen n hn
  rw [getLsbD_foldl_chainShift sr bits (by omega) (by omega), List.getElem?_reverse (by omega), hlen,
    show 16 - 1 - (15 - n) = n by omega]

end Sys2Proof.Machine
end

section
/-! SUPPORT. The line write as an equation, fault or next state (R54 to R56, R64, R65, R110), and with it `SET`, the
engine's step at a line write, and frames driven by hand. -/

namespace Sys2Proof.Machine

section

variable {site : Site} {l : Line} {v : Bool} {s : State}

/-- The write is neither of the two faults: no change of DATA under a high clock (R64), no rise of CLOCK under a high
latch (R65). -/
def SafeWrite (l : Line) (v : Bool) (s : State) : Prop :=
  (l = .data → s.level.clock = true → v = s.level.data) ∧
    (l = .clock → v = true → s.level.clock = false → s.level.latch = false)

/-- The state a safe line write leaves: the level stored; the chain shifted at a rise of CLOCK, the outputs committed at
a rise of LATCH (R54 to R56, R110). -/
def State.afterWrite (s : State) (l : Line) (v : Bool) : State :=
  { s with
    level := s.level.set l v
    sr := if l = .clock ∧ v = true ∧ s.level.clock = false then chainShift s.sr s.level.data else s.sr
    out := if l = .latch ∧ v = true ∧ s.level.latch = false then s.sr else s.out }

theorem lineWrite_of_safe (h : SafeWrite l v s) : lineWrite site l v s = .next (s.afterWrite l v) := by
  cases hw : lineWrite site l v s with
  | next t => rw [lineWrite_next hw]; rfl
  | fault f =>
    obtain ⟨hl, hclock, hv, -⟩ | ⟨hl, hv, hclock, hlatch, -⟩ := lineWrite_fault hw
    · exact absurd (h.1 hl hclock) hv
    · exact absurd (h.2 hl hv hclock) (by simp [hlatch])
  | refused x => exact absurd hw lineWrite_not_refused

theorem lineWrite_data_fault (hc : s.level.clock = true) (hv : v ≠ s.level.data) :
    lineWrite site .data v s = .fault (.dataChangeWhileClockHigh site) := by
  simp [lineWrite, hc, hv]

theorem lineWrite_clock_fault (hc : s.level.clock = false) (hl : s.level.latch = true) :
    lineWrite site .clock true s = .fault (.shiftWhileLatchHigh site) := by
  simp [lineWrite, hc, hl]

theorem safeWrite_latch (v : Bool) (s : State) : SafeWrite .latch v s :=
  ⟨nofun, nofun⟩

theorem safeWrite_data (h : s.level.clock = true → v = s.level.data) : SafeWrite .data v s :=
  ⟨fun _ => h, nofun⟩

theorem safeWrite_clock (h : v = true → s.level.clock = false → s.level.latch = false) : SafeWrite .clock v s :=
  ⟨nofun, fun _ => h⟩

/-- Without a rise of CLOCK or LATCH the sink stays as it is (R56). -/
theorem State.afterWrite_of_no_edge (h : l ≠ .data → v = true → s.level.get l = true) :
    s.afterWrite l v = { s with level := s.level.set l v } := by
  have hclock : ¬ (l = .clock ∧ v = true ∧ s.level.clock = false) := by
    rintro ⟨rfl, hv, hc⟩
    exact absurd (h nofun hv) (by simp [hc])
  have hlatch : ¬ (l = .latch ∧ v = true ∧ s.level.latch = false) := by
    rintro ⟨rfl, hv, hc⟩
    exact absurd (h nofun hv) (by simp [hc])
  rw [State.afterWrite, if_neg hclock, if_neg hlatch]

theorem State.afterWrite_data (s : State) (v : Bool) :
    s.afterWrite .data v = { s with level := { s.level with data := v } } :=
  State.afterWrite_of_no_edge (absurd rfl)

theorem State.afterWrite_clock_rise (h : s.level.clock = false) :
    s.afterWrite .clock true =
      { s with
        level := { s.level with clock := true }
        sr := s.sr.extractLsb' 0 15 ++ BitVec.ofBool s.level.data } := by
  simp [State.afterWrite, h, chainShift_eq_append]

theorem State.afterWrite_latch_rise (h : s.level.latch = false) :
    s.afterWrite .latch true = { s with level := { s.level with latch := true }, out := s.sr } := by
  simp [State.afterWrite, h]

/-- `SET` of an output by a safe write is that write, traced (R110). -/
theorem exec_setLine_of_safe (hf : s.fault = none) (hd : s.dir.get l = .out) (h : SafeWrite l v s) :
    exec (.setLine l v) s = .next ((s.afterWrite l v).record (.lineWrite l v)) := by
  have hlines : linesConfigured (linesNeeded (.setLine l v)) s = true :=
    linesConfigured_iff.mpr fun _ hk => List.mem_singleton.mp hk ▸ hd
  rw [exec_eq_runOps _ s hf hlines]
  simp [microOps, setOps, runOps_cons, performTraced, perform, lineWrite_of_safe h]

/-- `SHIFT` from a low clock and a low latch: the byte enters the upstream register (R130, R57). -/
theorem exec_shift_of_clock_latch_low (b : Byte) (hf : s.fault = none) (hdata : s.dir.data = .out)
    (hclock : s.dir.clock = .out) (hc : s.level.clock = false) (hl : s.level.latch = false) :
    exec (.shift b) s =
      .next { s with
        sr := s.sr.extractLsb' 0 8 ++ b
        level := ⟨false, false, b.getLsbD 0⟩
        trace := s.trace ++ shiftOps b } := by
  have hlines : linesConfigured (linesNeeded (.shift b)) s = true := by
    simp [linesConfigured_iff, linesNeeded, shiftLines, hdata, hclock]
  rw [exec_eq_runOps _ s hf hlines]
  exact runOps_shiftOps _ _ 0 b s hc hl

/-- An engine step at a safe line write performs it. -/
theorem engineStep_of_safe {c : Context} {r : InFlight} (hc : activeContext s = c) (hr : s.infl c = some r)
    (hm : (microOps s.params r.op)[r.step]? = some (.lineWrite l v)) (h : SafeWrite l v s) :
    engineStep s = .next (((s.afterWrite l v).record (.lineWrite l v)).setInfl c (nextRecord s.params r)) :=
  (engineStep_eq_next_iff hc hr hm).mpr ⟨_, lineWrite_of_safe h, rfl⟩

end

/-- Settles O17: the write is safe, and it makes no edge. -/
theorem setWithoutAnEdgeStoresTheLevel : Obligations.SetWithoutAnEdgeStoresTheLevel := by
  unfold Obligations.SetWithoutAnEdgeStoresTheLevel
  intro s l v hf hd hdata hedge
  have hsafe : SafeWrite l v s := by
    refine ⟨hdata, ?_⟩
    rintro rfl hv hc
    exact absurd (hedge nofun hv) (by simp [hc])
  rw [exec_setLine_of_safe hf hd hsafe, State.afterWrite_of_no_edge hedge]
  rfl

/-- Settles O19: a line write moves the sink at its rising edge alone, the other two micro-operations never. -/
theorem sinkMovesOnRisingEdgesOnly : Obligations.SinkMovesOnRisingEdgesOnly := by
  unfold Obligations.SinkMovesOnRisingEdgesOnly
  intro site m s t h
  cases m with
  | lineWrite l v =>
    rw [lineWrite_next h]
    simp [chainShift_eq_append, and_assoc]
  | lineDir l => cases h; simp
  | delay => cases h; simp

/-- Settles O37: LATCH low, the byte shifted in, and the commit of what the chain then holds. -/
theorem halfAFrameIsCommittedAsItStands : Obligations.HalfAFrameIsCommittedAsItStands := by
  unfold Obligations.HalfAFrameIsCommittedAsItStands
  intro b s hf hready hc
  obtain ⟨hlatch, hclock, hdata⟩ := (State.mode_eq_ready s).mp hready
  refine andThen_eq_next.mpr ⟨_, exec_setLine_of_safe hf hlatch (safeWrite_latch false s), ?_⟩
  refine andThen_eq_next.mpr ⟨_, exec_shift_of_clock_latch_low b hf hdata hclock hc rfl, ?_⟩
  refine Eq.trans (exec_setLine_of_safe hf hlatch (safeWrite_latch true _)) ?_
  rw [State.afterWrite_latch_rise rfl]
  rfl

/-- Settles O15: under a low latch the write is safe, and it is a rise of CLOCK. -/
theorem setClockHighShiftsTheChain : Obligations.SetClockHighShiftsTheChain := by
  unfold Obligations.SetClockHighShiftsTheChain
  intro s hf hd hc hl
  rw [exec_setLine_of_safe (l := .clock) hf hd (safeWrite_clock fun _ _ => hl), State.afterWrite_clock_rise hc]
  rfl

/-- Settles O16: a write of LATCH is safe, and this one is a rise. -/
theorem setLatchHighCommitsTheChain : Obligations.SetLatchHighCommitsTheChain := by
  unfold Obligations.SetLatchHighCommitsTheChain
  intro s hf hd hl
  rw [exec_setLine_of_safe (l := .latch) hf hd (safeWrite_latch true s), State.afterWrite_latch_rise hl]
  rfl

/-- Settles O21: the engine's step faults where its write does, and else leaves the state after the write. -/
theorem dataChangeUnderHighClockFaults : Obligations.DataChangeUnderHighClockFaults := by
  unfold Obligations.DataChangeUnderHighClockFaults
  intro s c r v hc hr hm
  refine ⟨fun ⟨hclock, hv⟩ => (engineStep_eq_fault_iff hc hr hm).mpr (lineWrite_data_fault hclock hv), fun hok => ?_⟩
  have hsafe : SafeWrite .data v s := safeWrite_data fun hclock => hok.resolve_left (by simp [hclock])
  refine ⟨_, engineStep_of_safe hc hr hm hsafe, ?_⟩
  rw [State.afterWrite_data]
  simp

/-- Settles O22: the engine's step faults where its write does, and else leaves the state after the rise of CLOCK. -/
theorem shiftUnderHighLatchFaults : Obligations.ShiftUnderHighLatchFaults := by
  unfold Obligations.ShiftUnderHighLatchFaults
  intro s c r hc hr hm hclock
  refine ⟨fun hl => (engineStep_eq_fault_iff hc hr hm).mpr (lineWrite_clock_fault hclock hl), fun hl => ?_⟩
  refine ⟨_, engineStep_of_safe hc hr hm (safeWrite_clock fun _ _ => hl), ?_⟩
  rw [State.afterWrite_clock_rise hclock]
  simp

end Sys2Proof.Machine
end

section
/-! SUPPORT. The decoder as equations on the three fields of R84, one an opcode, and the ignored bits of R86 as those
that two masks clear in the operand bytes. -/

namespace Sys2Proof.Machine

open Sys2Proof.Laws.EncodesCanonically (toNat_commandWord)

/-! Every word is its three fields (R84). -/

theorem exists_commandWord (w : CommandWord) : ∃ op a b, w = commandWord op a b := by
  refine ⟨opField w, aField w, bField w, BitVec.eq_of_getLsbD_eq fun i hi => ?_⟩
  rw [getLsbD_commandWord]
  split
  · simp [bField, *]
  · split
    · have hi8 : i - 8 < 8 := by omega
      simp [aField, hi8, show 8 + (i - 8) = i by omega]
    · have hi4 : i - 16 < 4 := by omega
      simp [opField, hi4, show 16 + (i - 16) = i by omega]

theorem commandWord_and (op op' : BitVec 4) (a a' b b' : Byte) :
    commandWord op a b &&& commandWord op' a' b' = commandWord (op &&& op') (a &&& a') (b &&& b') := by
  refine BitVec.eq_of_getLsbD_eq fun i _ => ?_
  simp only [BitVec.getLsbD_and, getLsbD_commandWord]
  split_ifs <;> rfl

section

variable (op : BitVec 4) (a b : Byte)

/-- The opcode as the table of R85 reads it off the word. -/
theorem toNat_commandWord_div : (commandWord op a b).toNat / 0x10000 = op.toNat := by
  have ha := a.isLt
  have hb := b.isLt
  rw [toNat_commandWord]
  omega

/-- The line code of `SET` as the table of R85 reads it off the word. -/
theorem toNat_commandWord_setCode : (commandWord op a b).toNat / 2 % 4 = (b.extractLsb' 1 2).toNat := by
  rw [toNat_commandWord, BitVec.extractLsb'_toNat, Nat.shiftRight_eq_div_pow]
  omega

/-- The line code of `CFGOUT` as the table of R85 reads it off the word. -/
theorem toNat_commandWord_cfgoutCode : (commandWord op a b).toNat % 4 = (b.extractLsb' 0 2).toNat := by
  rw [toNat_commandWord, BitVec.extractLsb'_toNat, Nat.shiftRight_zero]
  omega

/-! The decoder, one equation an opcode (R85, R89 to R91). -/

@[simp] theorem decode_init_word : decode (commandWord 0x1 a b) = .ok .init := by
  simp [decode, opField_commandWord]

@[simp] theorem decode_show_word : decode (commandWord 0x2 a b) = .ok (.showDigit b a) := by
  simp [decode, opField_commandWord, aField_commandWord, bField_commandWord]

@[simp] theorem decode_clr_word : decode (commandWord 0x3 a b) = .ok .clr := by
  simp [decode, opField_commandWord]

@[simp] theorem decode_shift_word : decode (commandWord 0x4 a b) = .ok (.shift b) := by
  simp [decode, opField_commandWord, bField_commandWord]

@[simp] theorem decode_pulse_word : decode (commandWord 0x5 a b) = .ok .pulse := by
  simp [decode, opField_commandWord]

@[simp] theorem decode_set_word :
    decode (commandWord 0x6 a b) = (lineOfCode (b.extractLsb' 1 2)).map (Instr.setLine · (b.getLsbD 0)) := by
  simp [decode, opField_commandWord, bField_commandWord]

@[simp] theorem decode_cfgout_word :
    decode (commandWord 0x7 a b) = (lineOfCode (b.extractLsb' 0 2)).map Instr.cfgout := by
  simp [decode, opField_commandWord, bField_commandWord]

theorem decode_reserved_word {op : BitVec 4} (h : op.toNat = 0 ∨ 8 ≤ op.toNat) :
    decode (commandWord op a b) = .error .reservedOpcode := by
  unfold decode
  rw [opField_commandWord]
  split
  case h_8 => rfl
  all_goals omega

end

/-- An opcode is reserved or one of the seven (R85, R87). -/
theorem opcode_cases : ∀ op : BitVec 4, (op.toNat = 0 ∨ 8 ≤ op.toNat) ∨
    op = 1 ∨ op = 2 ∨ op = 3 ∨ op = 4 ∨ op = 5 ∨ op = 6 ∨ op = 7 := by
  decide

/-- A line code is reserved or that of a line (R85, R88). -/
theorem lineOfCode_cases : ∀ c : BitVec 2,
    (c.toNat = 3 ∧ lineOfCode c = .error .reservedLine) ∨ ∃ l, c = codeOfLine l ∧ lineOfCode c = .ok l
  | 0 => .inr ⟨.latch, rfl, rfl⟩
  | 1 => .inr ⟨.clock, rfl, rfl⟩
  | 2 => .inr ⟨.data, rfl, rfl⟩
  | 3 => .inl ⟨rfl, rfl⟩

@[simp] theorem lineOfCode_codeOfLine (l : Line) : lineOfCode (codeOfLine l) = .ok l := by
  cases l <;> rfl

/-! The operand byte of `SET` and of `CFGOUT`: its fields, and the fields put back together (R85). -/

theorem extractLsb'_setByte (c : BitVec 2) (v : BitVec 1) :
    BitVec.extractLsb' (n := 8) 1 2 ((0 : BitVec 5) ++ c ++ v) = c := by
  revert c v; decide

theorem getLsbD_setByte (c : BitVec 2) (v : Bool) :
    BitVec.getLsbD (w := 8) ((0 : BitVec 5) ++ c ++ BitVec.ofBool v) 0 = v := by
  revert c v; decide

theorem extractLsb'_cfgoutByte (c : BitVec 2) : BitVec.extractLsb' (n := 8) 0 2 ((0 : BitVec 6) ++ c) = c := by
  revert c; decide

theorem setByte_of_fields (b : Byte) :
    (0 : BitVec 5) ++ b.extractLsb' 1 2 ++ BitVec.ofBool (b.getLsbD 0) = b &&& 7 := by
  revert b; decide

theorem cfgoutByte_of_fields (b : Byte) : (0 : BitVec 6) ++ b.extractLsb' 0 2 = b &&& 3 := by
  revert b; decide

/-- Settles O1: the decoder reads the encoder's fields back, the line code included. -/
theorem decodeOfEncodeIsTheOperation : Obligations.DecodeOfEncodeIsTheOperation := by
  unfold Obligations.DecodeOfEncodeIsTheOperation
  intro i
  cases i with
  | init => exact decode_init_word 0 0
  | showDigit segments position => exact decode_show_word position segments
  | clr => exact decode_clr_word 0 0
  | shift byte => exact decode_shift_word 0 byte
  | pulse => exact decode_pulse_word 0 0
  | setLine line value =>
    rw [encode, decode_set_word, extractLsb'_setByte, getLsbD_setByte, lineOfCode_codeOfLine]
    rfl
  | cfgout line =>
    rw [encode, decode_cfgout_word, extractLsb'_cfgoutByte, lineOfCode_codeOfLine]
    rfl

/-- Settles O4: each word is its opcode over two operand bytes. -/
theorem specWordsDecode : Obligations.SpecWordsDecode := by
  unfold Obligations.SpecWordsDecode
  exact ⟨decode_init_word 0xAB 0xCD, decode_show_word 0x10 0xF9, decode_clr_word 0xFF 0xFF,
    decode_shift_word 0xFF 0xA5, decode_pulse_word 0x12 0x34, decode_set_word 0x00 0x03, decode_set_word 0x00 0xFD,
    decode_cfgout_word 0x00 0xFC,
    decode_reserved_word 0x00 0x00 (op := 0) (by decide), decode_reserved_word 0x00 0x00 (op := 8) (by decide),
    decode_set_word 0x00 0xFE, decode_cfgout_word 0x00 0x03⟩

/-! The three outcomes of decoding, told apart by the table of R85. -/

theorem decode_of_reservedOpcode {w : CommandWord} (h : w.toNat / 0x10000 = 0 ∨ 8 ≤ w.toNat / 0x10000) :
    decode w = .error .reservedOpcode := by
  obtain ⟨op, a, b, rfl⟩ := exists_commandWord w
  rw [toNat_commandWord_div] at h
  exact decode_reserved_word a b h

theorem decode_of_reservedLine {w : CommandWord}
    (h : (w.toNat / 0x10000 = 6 ∧ w.toNat / 2 % 4 = 3) ∨ (w.toNat / 0x10000 = 7 ∧ w.toNat % 4 = 3)) :
    decode w = .error .reservedLine := by
  obtain ⟨op, a, b, rfl⟩ := exists_commandWord w
  rw [toNat_commandWord_div, toNat_commandWord_setCode, toNat_commandWord_cfgoutCode] at h
  obtain ⟨hop, hc⟩ | ⟨hop, hc⟩ := h
  · obtain rfl : op = 6 := BitVec.eq_of_toNat_eq hop
    have hc' : b.extractLsb' 1 2 = 3 := BitVec.eq_of_toNat_eq hc
    rw [decode_set_word, hc']
    rfl
  · obtain rfl : op = 7 := BitVec.eq_of_toNat_eq hop
    have hc' : b.extractLsb' 0 2 = 3 := BitVec.eq_of_toNat_eq hc
    rw [decode_cfgout_word, hc']
    rfl

/-- Settles O3: by the opcode, and by the line code of `SET` and `CFGOUT`. -/
theorem everyWordDecodesOrIsReserved : Obligations.EveryWordDecodesOrIsReserved := by
  unfold Obligations.EveryWordDecodesOrIsReserved
  intro w
  split
  next hop => exact decode_of_reservedOpcode hop
  next hop =>
    split
    next hline => exact decode_of_reservedLine hline
    next hline =>
      obtain ⟨op, a, b, rfl⟩ := exists_commandWord w
      rw [toNat_commandWord_div] at hop hline
      rw [toNat_commandWord_setCode, toNat_commandWord_cfgoutCode] at hline
      obtain h | rfl | rfl | rfl | rfl | rfl | rfl | rfl := opcode_cases op
      · exact absurd h hop
      · exact ⟨_, decode_init_word a b⟩
      · exact ⟨_, decode_show_word a b⟩
      · exact ⟨_, decode_clr_word a b⟩
      · exact ⟨_, decode_shift_word a b⟩
      · exact ⟨_, decode_pulse_word a b⟩
      · obtain ⟨h3, -⟩ | ⟨l, -, hl⟩ := lineOfCode_cases (b.extractLsb' 1 2)
        · exact absurd (.inl ⟨rfl, h3⟩) hline
        · exact ⟨_, (decode_set_word a b).trans (congrArg _ hl)⟩
      · obtain ⟨h3, -⟩ | ⟨l, -, hl⟩ := lineOfCode_cases (b.extractLsb' 0 2)
        · exact absurd (.inr ⟨rfl, h3⟩) hline
        · exact ⟨_, (decode_cfgout_word a b).trans (congrArg _ hl)⟩

/-! The ignored bits (R86). -/

/-- The bits of operand byte `a` that an operation with opcode `op` looks at (R85). -/
def usedA (op : BitVec 4) : Byte := if op = 2 then 0xFF else 0

/-- The bits of operand byte `b` that an operation with opcode `op` looks at (R85). -/
def usedB (op : BitVec 4) : Byte :=
  if op = 2 ∨ op = 4 then 0xFF else if op = 6 then 7 else if op = 7 then 3 else 0

theorem usedBits_eq_commandWord : ∀ op : BitVec 4, usedBits op.toNat = commandWord 0xF (usedA op) (usedB op) := by
  decide

/-- Clearing a word's ignored bits clears those of its operand bytes (R86). -/
theorem commandWord_and_usedBits (op : BitVec 4) (a b : Byte) :
    commandWord op a b &&& usedBits op.toNat = commandWord op (a &&& usedA op) (b &&& usedB op) := by
  rw [usedBits_eq_commandWord, commandWord_and]
  exact congrArg (commandWord · _ _) BitVec.and_allOnes

/-- The decoder does not look at the ignored bits (R86). -/
theorem decode_usedFields (op : BitVec 4) (a b : Byte) :
    decode (commandWord op (a &&& usedA op) (b &&& usedB op)) = decode (commandWord op a b) := by
  obtain h | rfl | rfl | rfl | rfl | rfl | rfl | rfl := opcode_cases op
  · rw [decode_reserved_word _ _ h, decode_reserved_word _ _ h]
  · simp only [decode_init_word]
  · exact congrArg₂ (decode <| commandWord 2 · ·) BitVec.and_allOnes BitVec.and_allOnes
  · simp only [decode_clr_word]
  · rw [decode_shift_word, decode_shift_word]
    exact congrArg (Except.ok <| Instr.shift ·) BitVec.and_allOnes
  · simp only [decode_pulse_word]
  · have hbyte : ∀ b : Byte, (b &&& usedB 6).extractLsb' 1 2 = b.extractLsb' 1 2 ∧
        (b &&& usedB 6).getLsbD 0 = b.getLsbD 0 := by decide
    rw [decode_set_word, decode_set_word, (hbyte b).1, (hbyte b).2]
  · have hbyte : ∀ b : Byte, (b &&& usedB 7).extractLsb' 0 2 = b.extractLsb' 0 2 := by decide
    rw [decode_cfgout_word, decode_cfgout_word, hbyte b]

/-- The encoder of a decoded word clears its ignored bits (R86). -/
theorem encode_of_decode {op : BitVec 4} {a b : Byte} {i : Instr} (h : decode (commandWord op a b) = .ok i) :
    encode i = commandWord op (a &&& usedA op) (b &&& usedB op) := by
  have hzero : ∀ x : Byte, x &&& 0 = 0 := fun _ => BitVec.and_zero
  have hall : ∀ x : Byte, x &&& 0xFF = x := fun _ => BitVec.and_allOnes
  obtain hr | rfl | rfl | rfl | rfl | rfl | rfl | rfl := opcode_cases op
  · rw [decode_reserved_word a b hr] at h; cases h
  · rw [decode_init_word] at h; cases h
    exact congrArg₂ (commandWord 1) (hzero a).symm (hzero b).symm
  · rw [decode_show_word] at h; cases h
    exact congrArg₂ (commandWord 2) (hall a).symm (hall b).symm
  · rw [decode_clr_word] at h; cases h
    exact congrArg₂ (commandWord 3) (hzero a).symm (hzero b).symm
  · rw [decode_shift_word] at h; cases h
    exact congrArg₂ (commandWord 4) (hzero a).symm (hall b).symm
  · rw [decode_pulse_word] at h; cases h
    exact congrArg₂ (commandWord 5) (hzero a).symm (hzero b).symm
  · obtain ⟨-, hl⟩ | ⟨l, hc, hl⟩ := lineOfCode_cases (b.extractLsb' 1 2) <;>
      rw [decode_set_word, hl] at h <;> cases h
    rw [encode, ← hc]
    exact congrArg₂ (commandWord 6) (hzero a).symm (setByte_of_fields b)
  · obtain ⟨-, hl⟩ | ⟨l, hc, hl⟩ := lineOfCode_cases (b.extractLsb' 0 2) <;>
      rw [decode_cfgout_word, hl] at h <;> cases h
    rw [encode, ← hc]
    exact congrArg₂ (commandWord 7) (hzero a).symm (cfgoutByte_of_fields b)

/-- Settles O2: the used bits hold the opcode, so two words that agree on them are the same word once the ignored bits
are cleared. -/
theorem ignoredBitsDoNotMatter : Obligations.IgnoredBitsDoNotMatter := by
  unfold Obligations.IgnoredBitsDoNotMatter
  refine ⟨fun w w' h => ?_, fun w i h => ?_⟩
  · obtain ⟨op, a, b, rfl⟩ := exists_commandWord w
    obtain ⟨op', a', b', rfl⟩ := exists_commandWord w'
    rw [toNat_commandWord_div] at h
    have hop : op = op' := by
      have hf := congrArg opField h
      rw [usedBits_eq_commandWord, commandWord_and, commandWord_and, opField_commandWord, opField_commandWord] at hf
      exact BitVec.and_allOnes.symm.trans (hf.trans BitVec.and_allOnes)
    subst hop
    rw [commandWord_and_usedBits, commandWord_and_usedBits] at h
    rw [← decode_usedFields op a b, h, decode_usedFields]
  · obtain ⟨op, a, b, rfl⟩ := exists_commandWord w
    rw [toNat_commandWord_div, commandWord_and_usedBits]
    exact encode_of_decode h

end Sys2Proof.Machine
end

section
/-! SUPPORT. A reserved word sets the mark `REFUSED` and performs nothing (R162, R169). -/

namespace Sys2Proof.Machine

/-- The step that delivers an enabled issue or call of a reserved word sets the mark, whatever is configured, and takes
the move; the mark's reason is the word's own when there was none (R33, R162; log 8). -/
theorem step_reserved {s : State} {c : Context} {w : CommandWord} {moves : List HostMove} {r : DecodeReject}
    (hf : s.fault = none) (he : issueEnabled c s = true)
    (hh : s.host = .issue c w :: moves ∨ s.host = .call c w :: moves) (hw : decode w = .error r) :
    ∃ r', (s.refused = none → r' = r) ∧ step s = .next { s with host := moves, refused := some r' } := by
  refine ⟨s.refused.getD r, fun h => by rw [h]; rfl, ?_⟩
  obtain hh | hh := hh <;> simp [step, hf, deliver, hh, he, hw, State.refuse]

/-- Settles O10: the word decodes as a reserved opcode. -/
theorem reservedOpcodeIsRefused : Obligations.ReservedOpcodeIsRefused := by
  unfold Obligations.ReservedOpcodeIsRefused
  intro s c w rest hf he hh hw
  exact step_reserved hf he hh (decode_of_reservedOpcode hw)

/-- Settles O11: the word decodes as a reserved line, before any admission check. -/
theorem reservedLineIsRefused : Obligations.ReservedLineIsRefused := by
  unfold Obligations.ReservedLineIsRefused
  intro s c w rest hf he hh hw
  exact step_reserved hf he hh (decode_of_reservedLine hw)

end Sys2Proof.Machine
end

section
/-! SUPPORT. Operations built of others (R95): what a list of micro-operations answers depends on the operation it
belongs to only in the site a fault names, so operations one after the other run as their lists do. -/

namespace Sys2Proof.Machine

/-- The fault with its site replaced. -/
def Fault.mapSite (g : Site → Site) : Fault → Fault
  | .useBeforeInit x => .useBeforeInit (g x)
  | .dataChangeWhileClockHigh x => .dataChangeWhileClockHigh (g x)
  | .shiftWhileLatchHigh x => .shiftWhileLatchHigh (g x)

/-- The answer with the site of its fault, if it is one, replaced. -/
def mapSite (g : Site → Site) : Result → Result
  | .next s => .next s
  | .fault f => .fault (f.mapSite g)
  | .refused x => .refused x

theorem mapSite_eq_next_iff {g : Site → Site} {r : Result} {t : State} : mapSite g r = .next t ↔ r = .next t := by
  cases r <;> simp [mapSite]

theorem mapSite_andThen (g : Site → Site) (r : Result) (f : State → Result) :
    mapSite g (andThen r f) = andThen (mapSite g r) fun s => mapSite g (f s) := by
  cases r <;> rfl

/-- A line write uses its site only to name it in a fault (R161). -/
theorem lineWrite_mapSite (g : Site → Site) (site : Site) (l : Line) (v : Bool) (s : State) :
    lineWrite (g site) l v s = mapSite g (lineWrite site l v s) := by
  cases l <;> simp only [lineWrite] <;> split_ifs <;> rfl

theorem performTraced_mapSite (g : Site → Site) (site : Site) (m : MicroOp) (s : State) :
    performTraced (g site) m s = mapSite g (performTraced site m s) := by
  have hperform : perform (g site) m s = mapSite g (perform site m s) := by
    cases m with
    | lineWrite l v => exact lineWrite_mapSite g site l v s
    | lineDir l => rfl
    | delay => rfl
  rw [performTraced, performTraced, mapSite_andThen, hperform]
  rfl

/-- A list run for another operation, context or STEP answers the same but for the site of a fault. -/
theorem runOps_mapSite {g : Site → Site} {c c' : Context} {i j : Instr} {n : Nat}
    (hg : ∀ k, g ⟨c, i, k⟩ = ⟨c', j, n + k⟩) (k : Nat) (ms : List MicroOp) (s : State) :
    runOps c' j (n + k) ms s = mapSite g (runOps c i k ms s) := by
  induction ms generalizing k s with
  | nil => rfl
  | cons m ms ih =>
    rw [runOps_cons, runOps_cons, mapSite_andThen, ← hg, performTraced_mapSite]
    exact congrArg _ (funext (ih (k + 1)))

/-- Two operations with one admission check and one list answer the same, each naming itself in a fault. -/
theorem exec_mapSite_of_same_ops {i j : Instr} {s : State} (hf : s.fault = none)
    (hlines : linesNeeded i = linesNeeded j) (hops : microOps s.params i = microOps s.params j) :
    exec j s = mapSite (fun x => { x with op := j }) (exec i s) := by
  have hrun := runOps_mapSite (g := fun x => { x with op := j }) (n := 0) (c := s.caller) (i := i)
    (fun k => by rw [Nat.zero_add]) 0 (microOps s.params j) s
  simp only [exec_eq_runOperation, runOperation, hf, hlines, hops]
  split
  · exact hrun
  · rfl

theorem exec_fault_of_same_ops {i j : Instr} {s : State} {f : Fault} (hf : s.fault = none)
    (hlines : linesNeeded i = linesNeeded j) (hops : microOps s.params i = microOps s.params j)
    (h : exec i s = .fault f) : exec j s = .fault (f.mapSite fun x => { x with op := j }) := by
  rw [exec_mapSite_of_same_ops hf hlines hops, h]
  rfl

/-- In a faulted state every operation answers the mark's fault (R161). -/
theorem exec_of_fault {i : Instr} {s : State} {f : Fault} (hf : s.fault = some f) : exec i s = .fault f := by
  simp [exec_eq_runOperation, runOperation, hf]

/-- An admitted operation answers a next state exactly when its list does, whoever runs it and from whatever STEP. -/
theorem exec_eq_next_iff_runOps {i : Instr} {s t : State} (hf : s.fault = none)
    (hl : linesConfigured (linesNeeded i) s = true) (c : Context) (j : Instr) (k : Nat) :
    exec i s = .next t ↔ runOps c j k (microOps s.params i) s = .next t := by
  have hrun := runOps_mapSite (g := fun x => ⟨c, j, k + x.step⟩) (c := s.caller) (i := i) (fun _ => rfl) 0
    (microOps s.params i) s
  rw [exec_eq_runOps i s hf hl, ← mapSite_eq_next_iff, ← hrun, Nat.add_zero]

/-- Operations one after the other, each run to completion (R95). -/
def execAll : List Instr → State → Result
  | [], s => .next s
  | i :: is, s => andThen (exec i s) (execAll is)

/-- Admitted operations one after the other answer the next state of their lists one after the other: no operation
marks a fault or takes back a configured line (R22, R95). -/
theorem execAll_eq_next_iff_runOps {is : List Instr} {s t : State} (hf : s.fault = none)
    (hl : ∀ i ∈ is, linesConfigured (linesNeeded i) s = true) (c : Context) (j : Instr) (k : Nat) :
    execAll is s = .next t ↔ runOps c j k (is.flatMap (microOps s.params)) s = .next t := by
  induction is generalizing k s with
  | nil => rfl
  | cons i is ih =>
    obtain ⟨hi, his⟩ := List.forall_mem_cons.mp hl
    rw [execAll, List.flatMap_cons, runOps_append, andThen_eq_next, andThen_eq_next]
    refine exists_congr fun u => ?_
    rw [exec_eq_next_iff_runOps hf hi c j k]
    refine and_congr_right fun hu => ?_
    have hext := runOps_extends hu
    have hlines : ∀ i ∈ is, linesConfigured (linesNeeded i) u = true := fun i hmem =>
      linesConfigured_iff.mpr fun l hlm => hext.dir l (linesConfigured_iff.mp (his i hmem) l hlm)
    rw [ih (hext.fault.trans hf) hlines, hext.params]

/-- An operation whose list is that of a list of operations answers a next state exactly when these do, and the same
one (R95). -/
theorem exec_eq_next_iff_execAll {i : Instr} {is : List Instr} {s t : State} (hf : s.fault = none)
    (hl : ∀ j ∈ i :: is, linesConfigured (linesNeeded j) s = true)
    (hops : microOps s.params i = is.flatMap (microOps s.params)) : exec i s = .next t ↔ execAll is s = .next t := by
  obtain ⟨hi, his⟩ := List.forall_mem_cons.mp hl
  rw [exec_eq_next_iff_runOps hf hi s.caller i 0, hops, ← execAll_eq_next_iff_runOps hf his]

theorem andThen_pure (r : Result) : andThen r .next = r := by
  cases r <;> rfl

/-- Settles O35: `SHOW`'s list is the four operations' lists. -/
theorem showIsTheHandBuiltFrame : Obligations.ShowIsTheHandBuiltFrame := by
  unfold Obligations.ShowIsTheHandBuiltFrame
  intro g p s t hf hready
  have hops : microOps s.params (.showDigit g p) =
      [.setLine .latch false, .shift p, .shift g, .setLine .latch true].flatMap (microOps s.params) := by
    simp [microOps, showOps, setOps]
  rw [exec_eq_next_iff_execAll hf (fun _ _ => linesConfigured_of_ready hready _) hops]
  simp only [execAll, andThen_pure]

/-- `set(DATA, v)` and `PULSE`: one bit sent by hand (R95). -/
def bitInstrs (v : Bool) : List Instr := [.setLine .data v, .pulse]

theorem flatMap_bitInstrs (p : Config.Params) (bits : List Bool) :
    (bits.flatMap bitInstrs).flatMap (microOps p) = bits.flatMap bitOps := by
  rw [List.flatMap_assoc]
  rfl

/-- Bits sent by hand one after the other, as a fold over the places they come from. -/
theorem foldl_bitInstrs {α : Type} (bit : α → Bool) (places : List α) (r : Result) :
    places.foldl (fun r i => andThen (andThen r (exec (.setLine .data (bit i)))) (exec .pulse)) r =
      andThen r (execAll ((places.map bit).flatMap bitInstrs)) := by
  induction places generalizing r with
  | nil => exact (andThen_pure r).symm
  | cons i places ih =>
    rw [List.foldl_cons, ih, andThen_assoc, andThen_assoc]
    rfl

/-- Settles O36: `SHIFT`'s list is that of the bits sent by hand. -/
theorem shiftIsEightSetAndPulse : Obligations.ShiftIsEightSetAndPulse := by
  unfold Obligations.ShiftIsEightSetAndPulse
  intro b s t hf hdata hclock
  have hshift : linesConfigured (linesNeeded (.shift b)) s = true := by
    simp [linesConfigured_iff, linesNeeded, shiftLines, hdata, hclock]
  have hbits : ∀ j ∈ (bitsMsbFirst b).flatMap bitInstrs, linesConfigured (linesNeeded j) s = true := by
    intro j hj
    obtain ⟨v, -, hv⟩ := List.mem_flatMap.mp hj
    obtain rfl | rfl : j = .setLine .data v ∨ j = .pulse := by simpa [bitInstrs] using hv
    · simp [linesConfigured_iff, linesNeeded, setLines, hdata]
    · simp [linesConfigured_iff, linesNeeded, pulseLines, hclock]
  rw [foldl_bitInstrs, andThen_next]
  exact exec_eq_next_iff_execAll hf (List.forall_mem_cons.mpr ⟨hshift, hbits⟩) (flatMap_bitInstrs _ _).symm

/-- `CFGOUT` in every state without a fault mark (R111, R161). -/
theorem exec_cfgout {s : State} (hf : s.fault = none) (l : Line) :
    exec (.cfgout l) s = .next ((s.configure l).record (.lineDir l)) :=
  exec_eq_runOps (.cfgout l) s hf rfl

/-- `INIT` is the three `CFGOUT`, fault mark or not (R95, R150). -/
theorem exec_init_eq_cfgouts (s : State) :
    exec .init s = andThen (exec (.cfgout .latch) s) fun a =>
      andThen (exec (.cfgout .clock) a) (exec (.cfgout .data)) := by
  cases hf : s.fault with
  | some f => rw [exec_of_fault hf, exec_of_fault hf, andThen_fault]
  | none =>
    rw [exec_cfgout hf, andThen_next, exec_cfgout (s := (s.configure .latch).record _) hf, andThen_next,
      exec_cfgout (s := (((s.configure .latch).record _).configure .clock).record _) hf]
    exact exec_eq_runOps .init s hf rfl

/-- Settles O41: `CLR` is one list with its `SHOW`, so each answers what the other does but for the operation a fault
names. -/
theorem clrAndInitAreTheirExpansions : Obligations.ClrAndInitAreTheirExpansions := by
  unfold Obligations.ClrAndInitAreTheirExpansions
  refine ⟨fun s t => ?_, fun s k hf => ?_, exec_init_eq_cfgouts⟩
  · cases hf : s.fault with
    | some f => rw [exec_of_fault hf, exec_of_fault hf]
    | none =>
      have hshow := exec_mapSite_of_same_ops (i := .clr) (j := .showDigit 0xFF s.params.clrPosition) hf rfl rfl
      rw [hshow, mapSite_eq_next_iff]
  · refine ⟨⟨?_, ?_⟩, ⟨?_, ?_⟩, ⟨?_, ?_⟩⟩ <;> exact exec_fault_of_same_ops hf rfl rfl

end Sys2Proof.Machine
end

section
/-! SUPPORT. `configure_as_output`: what the three lines hold once each has been set, in whatever order (R23, R111). -/

namespace Sys2Proof

/-- Three different lines are all the lines, so setting each of them leaves nothing of what was held before; one case
for each of the six orders. -/
theorem PerLine.set_three_lines {α : Type} (p : PerLine α) (v : α) {a b c : Line} (hab : a ≠ b) (hbc : b ≠ c)
    (hac : a ≠ c) : ((p.set a v).set b v).set c v = ⟨v, v, v⟩ :=
  match a, b, c with
  | .latch, .clock, .data => rfl
  | .latch, .data, .clock => rfl
  | .clock, .latch, .data => rfl
  | .clock, .data, .latch => rfl
  | .data, .latch, .clock => rfl
  | .data, .clock, .latch => rfl

end Sys2Proof

namespace Sys2Proof.Machine

/-- Settles O18: `CFGOUT` is one `LineDir`, admitted in every state, and three of them reach every line. -/
theorem cfgoutConfiguresItsLineOnly : Obligations.CfgoutConfiguresItsLineOnly := by
  unfold Obligations.CfgoutConfiguresItsLineOnly
  exact ⟨fun _ l hf => exec_cfgout hf l, fun d _ _ _ => PerLine.set_three_lines d .out⟩

end Sys2Proof.Machine
end

section
/-! SUPPORT. `PULSE`, and every pulse within a list, as its three micro-operations run from any level: the rise of CLOCK
decides everything, a shift, no edge, or a fault (R120, R122, R54, R65). -/

namespace Sys2Proof.Machine

section

variable {c : Context} {i : Instr} {k : Nat} {l : Line} {v : Bool} {ms : List MicroOp} {s : State}

/-- A list that begins with a safe line write goes on from the state after it. -/
theorem runOps_lineWrite_of_safe (h : SafeWrite l v s) :
    runOps c i k (.lineWrite l v :: ms) s = runOps c i (k + 1) ms ((s.afterWrite l v).record (.lineWrite l v)) := by
  rw [runOps_cons, performTraced, perform, lineWrite_of_safe h, andThen_next, andThen_next]

/-- A list that begins with a line write that faults answers that fault. -/
theorem runOps_lineWrite_fault {f : Fault} (h : lineWrite ⟨c, i, k⟩ l v s = .fault f) :
    runOps c i k (.lineWrite l v :: ms) s = .fault f := by
  rw [runOps_cons, performTraced, perform, h, andThen_fault, andThen_fault]

theorem runOps_delay : runOps c i k (.delay :: ms) s = runOps c i (k + 1) ms (s.record .delay) := rfl

theorem safeWrite_clock_fall (s : State) : SafeWrite .clock false s :=
  safeWrite_clock nofun

/-- A fall of CLOCK stores the level alone (R56). -/
theorem State.afterWrite_clock_fall (s : State) :
    s.afterWrite .clock false = { s with level := { s.level with clock := false } } :=
  State.afterWrite_of_no_edge nofun

/-- A pulse whose rise of CLOCK is safe: what that write does to the chain, and CLOCK low (R120). -/
theorem runOps_pulseOps_of_safe (h : SafeWrite .clock true s) :
    runOps c i k pulseOps s =
      .next { s.afterWrite .clock true with
        level := { s.level with clock := false }
        trace := s.trace ++ pulseOps } := by
  rw [pulseOps, runOps_lineWrite_of_safe h, runOps_delay, runOps_lineWrite_of_safe (safeWrite_clock_fall _),
    State.afterWrite_clock_fall, runOps_nil]
  simp [State.afterWrite, State.record]

/-- `PULSE` with CLOCK an output is its list (R120, R161). -/
theorem exec_pulse_eq_runOps (hf : s.fault = none) (hd : s.dir.clock = .out) :
    exec .pulse s = runOps s.caller .pulse 0 pulseOps s :=
  exec_eq_runOps .pulse s hf (linesConfigured_iff.mpr fun _ hl => List.mem_singleton.mp hl ▸ hd)

end

/-- Settles O26, by the level of CLOCK, then of LATCH: from a high clock there is no edge; a rise from a low one shifts
under a low latch and faults under a high one. -/
theorem pulseShiftsOneBit : Obligations.PulseShiftsOneBit := by
  unfold Obligations.PulseShiftsOneBit
  intro s hf hd
  rw [exec_pulse_eq_runOps hf hd]
  split_ifs with hclock hlatch
  · have hsafe : SafeWrite .clock true s := safeWrite_clock fun _ hlow => absurd hclock (by simp [hlow])
    rw [runOps_pulseOps_of_safe hsafe, State.afterWrite_of_no_edge (l := .clock) fun _ _ => hclock]
  · rw [Bool.not_eq_true] at hclock
    exact runOps_lineWrite_fault (lineWrite_clock_fault hclock hlatch)
  · rw [Bool.not_eq_true] at hclock hlatch
    have hlevel : { s.level with clock := false } = s.level := by rw [← hclock]
    rw [runOps_pulseOps_of_safe (safeWrite_clock fun _ _ => hlatch), State.afterWrite_clock_rise hclock, hlevel]
    rfl

end Sys2Proof.Machine
end

section
/-! SUPPORT. `SHIFT`, and any bits sent by DATA write and pulse, from each entry level: a low clock forgets the old DATA
level, a high latch faults at the first rise of CLOCK, and under a high clock the first bit makes no edge (R54, R64, R65,
R130 to R132). -/

namespace Sys2Proof

theorem PerLine.set_get {α : Type} (p : PerLine α) (l : Line) : p.set l (p.get l) = p := by
  cases l <;> rfl

end Sys2Proof

namespace Sys2Proof.Machine

/-- A stage that no bit sent has reached holds what stood as many places below it (R54). -/
theorem getLsbD_foldl_chainShift_of_length_le (sr : Frame) (bits : List Bool) {i : Nat} (hi : i < 16)
    (hb : bits.length ≤ i) : (bits.foldl chainShift sr).getLsbD i = sr.getLsbD (i - bits.length) := by
  induction bits generalizing sr with
  | nil => rfl
  | cons v bits ih =>
    rw [List.length_cons] at hb ⊢
    rw [List.foldl_cons, ih _ (by omega), getLsbD_chainShift _ _ _ (by omega), if_neg (by omega), Nat.sub_add_eq]

/-- The low seven bits of a byte in the order they are sent (R52). -/
def lowBitsMsbFirst (b : Byte) : List Bool := (bitsMsbFirst b).tail

theorem bitsMsbFirst_eq_cons (b : Byte) : bitsMsbFirst b = b.getLsbD 7 :: lowBitsMsbFirst b := rfl

theorem getElem?_reverse_lowBitsMsbFirst (b : Byte) {i : Nat} (hi : i < 7) :
    (lowBitsMsbFirst b).reverse[i]? = some (b.getLsbD i) := by
  interval_cases i <;> rfl

/-- Seven shifts of a byte's low bits leave the nine low stages of the old chain above them (R54). -/
theorem foldl_chainShift_lowBits (sr : Frame) (b : Byte) :
    (lowBitsMsbFirst b).foldl chainShift sr = sr.extractLsb' 0 9 ++ b.extractLsb' 0 7 := by
  have hlen : (lowBitsMsbFirst b).length = 7 := rfl
  apply BitVec.eq_of_getLsbD_eq (w := 9 + 7)
  intro i hi
  rw [BitVec.getLsbD_append, BitVec.getLsbD_extractLsb', BitVec.getLsbD_extractLsb']
  split_ifs with h
  · apply Option.some.inj
    rw [getLsbD_foldl_chainShift sr _ hi (by omega), getElem?_reverse_lowBitsMsbFirst b h]
    simp [h]
  · rw [getLsbD_foldl_chainShift_of_length_le sr _ hi (by omega), hlen]
    simp [show i - 7 < 9 by omega]

section

variable {c : Context} {i : Instr} {k : Nat} {l : Line} {v : Bool} {bits : List Bool} {s : State}

/-- A write of the level the line has is neither of the two faults (R64, R65). -/
theorem safeWrite_of_held (h : s.level.get l = v) : SafeWrite l v s :=
  ⟨by rintro rfl -; exact h.symm, by rintro rfl hv hlow; exact absurd (h.trans hv) (by simp [hlow])⟩

/-- A write of the level the line has makes no edge and stores nothing new (R56, R61). -/
theorem State.afterWrite_of_held (h : s.level.get l = v) : s.afterWrite l v = s := by
  rw [State.afterWrite_of_no_edge fun _ hv => h.trans hv, ← h, PerLine.set_get]

/-- From a low clock the first bit's DATA write stores it, whatever DATA was (R130). -/
theorem runOps_bits_of_clock_low (hc : s.level.clock = false) :
    runOps c i k ((v :: bits).flatMap bitOps) s =
      runOps c i (k + 1) (pulseOps ++ bits.flatMap bitOps)
        ((s.setLevel .data v).record (.lineWrite .data v)) := by
  have hsafe : SafeWrite .data v s := safeWrite_data fun hhigh => absurd hhigh (by simp [hc])
  rw [List.flatMap_cons, bitOps, List.cons_append, runOps_lineWrite_of_safe hsafe, State.afterWrite_data]
  rfl

/-- From a low clock under a high latch the first bit's rise of CLOCK faults, its DATA write done (R65, R132). -/
theorem runOps_bits_fault_of_latch_high (hc : s.level.clock = false) (hl : s.level.latch = true) :
    runOps c i k ((v :: bits).flatMap bitOps) s = .fault (.shiftWhileLatchHigh ⟨c, i, k + 1⟩) := by
  rw [runOps_bits_of_clock_low hc]
  exact runOps_lineWrite_fault (lineWrite_clock_fault hc hl)

/-- From a high clock a first bit that changes DATA faults at its DATA write (R64). -/
theorem runOps_bits_fault_of_clock_high (hc : s.level.clock = true) (hv : v ≠ s.level.data) :
    runOps c i k ((v :: bits).flatMap bitOps) s = .fault (.dataChangeWhileClockHigh ⟨c, i, k⟩) :=
  runOps_lineWrite_fault (lineWrite_data_fault hc hv)

/-- From a high clock a first bit that DATA already holds makes no edge: it leaves CLOCK low and the chain as it was
(R54, R56). -/
theorem runOps_bits_of_clock_high (hc : s.level.clock = true) (hv : s.level.data = v) :
    runOps c i k ((v :: bits).flatMap bitOps) s =
      runOps c i (k + 4) (bits.flatMap bitOps)
        { s with level := { s.level with clock := false }, trace := s.trace ++ bitOps v } := by
  have hdata : s.level.get .data = v := hv
  have hrise : (s.record (.lineWrite .data v)).level.get .clock = true := hc
  rw [List.flatMap_cons, bitOps, List.cons_append, runOps_lineWrite_of_safe (safeWrite_of_held hdata),
    State.afterWrite_of_held hdata, runOps_append, runOps_pulseOps_of_safe (safeWrite_of_held hrise),
    State.afterWrite_of_held hrise, andThen_next]
  simp [State.record, pulseOps]

end

section

variable {b : Byte} {s : State}

/-- `SHIFT` with DATA and CLOCK outputs is its bits sent in order (R130, R161). -/
theorem exec_shift_eq_runOps (hf : s.fault = none) (hdata : s.dir.data = .out) (hclock : s.dir.clock = .out) :
    exec (.shift b) s =
      runOps s.caller (.shift b) 0 ((b.getLsbD 7 :: lowBitsMsbFirst b).flatMap bitOps) s := by
  rw [← bitsMsbFirst_eq_cons]
  exact exec_eq_runOps (.shift b) s hf (by simp [linesConfigured_iff, linesNeeded, shiftLines, hdata, hclock])

/-- From a low clock `SHIFT` forgets the DATA level it finds (R131). -/
theorem exec_shift_setData (hc : s.level.clock = false) (hf : s.fault = none) (hdata : s.dir.data = .out)
    (hclock : s.dir.clock = .out) (v : Bool) :
    exec (.shift b) (s.setLevel .data v) = exec (.shift b) s := by
  rw [exec_shift_eq_runOps hf hdata hclock, exec_shift_eq_runOps (s := s.setLevel .data v) hf hdata hclock,
    runOps_bits_of_clock_low hc, runOps_bits_of_clock_low (s := s.setLevel .data v) hc]
  rfl

end

/-- Settles O27: the byte's eight bits enter the chain one after the other. -/
theorem shiftLoadsTheUpstreamRegister : Obligations.ShiftLoadsTheUpstreamRegister := by
  unfold Obligations.ShiftLoadsTheUpstreamRegister
  intro b s hf hdata hclock hc hl
  exact exec_shift_of_clock_latch_low b hf hdata hclock hc hl

/-- Settles O28: the levels are the list's last writes, and from a low clock the first micro-operation stores DATA
anew. -/
theorem shiftLeavesDataAtBitZero : Obligations.ShiftLeavesDataAtBitZero := by
  unfold Obligations.ShiftLeavesDataAtBitZero
  intro b s t h
  obtain ⟨hf, hlines, hrun⟩ := exec_next h
  have hlevel := (runOps_extends hrun).level
  obtain ⟨-, -, -, hout⟩ := operationFrame _ s t h
  have hdir := linesConfigured_iff.mp hlines
  refine ⟨PerLine.ext_get fun l => ?_, hout, fun hc v => ?_⟩
  · rw [hlevel]
    cases l <;> rfl
  · have hdata := hdir .data (by simp [linesNeeded, shiftLines])
    have hclock := hdir .clock (by simp [linesNeeded, shiftLines])
    exact (exec_shift_setData hc hf hdata hclock v).trans h

/-- Settles O29, by the levels of CLOCK and LATCH at entry: the first edge is the first bit's from a low clock and the
second bit's from a high one. -/
theorem shiftFromUnsafeEntryLevels : Obligations.ShiftFromUnsafeEntryLevels := by
  unfold Obligations.ShiftFromUnsafeEntryLevels
  intro b s hf hdata hclock
  rw [exec_shift_eq_runOps hf hdata hclock]
  refine ⟨fun hc hl => runOps_bits_fault_of_latch_high hc hl, fun hc hv => runOps_bits_fault_of_clock_high hc hv,
    fun hc hv hl => ?_, fun hc hv hl => ?_⟩
  · rw [runOps_bits_of_clock_high hc hv.symm]
    exact runOps_bits_fault_of_latch_high rfl hl
  · rw [runOps_bits_of_clock_high hc hv.symm]
    refine Eq.trans (runOps_bits _ _ _ _ _ rfl hl) ?_
    rw [foldl_chainShift_lowBits, List.append_assoc]
    rfl

end Sys2Proof.Machine
end

section
/-! SUPPORT. The frame list as a whole, from either level of CLOCK: `SHOW` and `CLR` are one list, so what it does to
the chain, the outputs and the levels is said once for both (R54, R55, R140 to R147, R151). -/

namespace Sys2Proof.Machine

section

variable {c : Context} {i : Instr} {k : Nat} {g p : Byte} {s : State}

/-- Over a frame's low fifteen bits the old stage 0 is left in stage 15 (R54, R147 a). -/
theorem foldl_chainShift_fifteenBits (sr : Frame) (g p : Byte) :
    (lowBitsMsbFirst p ++ bitsMsbFirst g).foldl chainShift sr =
      BitVec.ofBool (sr.getLsbD 0) ++ (p ++ g).extractLsb' 0 15 := by
  have hlen : (lowBitsMsbFirst p ++ bitsMsbFirst g).length = 15 := rfl
  apply BitVec.eq_of_getLsbD_eq (w := 1 + 15)
  intro n hn
  rw [BitVec.getLsbD_append, BitVec.getLsbD_extractLsb', Nat.zero_add]
  split_ifs with h
  · have hbits := getElem?_bitsMsbFirst_append p g (n := 15 - n) (by omega)
    rw [bitsMsbFirst_eq_cons p, List.cons_append, show 15 - n = 14 - n + 1 by omega, List.getElem?_cons_succ,
      show 15 - (14 - n + 1) = n by omega] at hbits
    apply Option.some.inj
    rw [getLsbD_foldl_chainShift sr _ hn (by omega), List.getElem?_reverse (by omega), hlen,
      show 15 - 1 - n = 14 - n by omega, hbits]
    simp [h]
  · rw [getLsbD_foldl_chainShift_of_length_le sr _ hn (by omega), hlen, show n - 15 = 0 by omega]
    simp

/-- The frame list is its bits sent under a latch driven low, then the commit (R140). -/
theorem runOps_showOps :
    runOps c i k (showOps g p) s =
      andThen (runOps c i (k + 1) ((bitsMsbFirst p ++ bitsMsbFirst g).flatMap bitOps)
        ((s.setLevel .latch false).record (.lineWrite .latch false)))
        (runOps c i (k + 65) [.lineWrite .latch true]) := by
  rw [showOps_eq_bits, runOps_lineWrite_of_safe (safeWrite_latch false s),
    State.afterWrite_of_no_edge (v := false) nofun, runOps_append]
  rfl

/-- From a low clock all sixteen bits are taken in, and the frame is committed (R141, R142). -/
theorem runOps_showOps_of_clock_low (hc : s.level.clock = false) :
    runOps c i k (showOps g p) s =
      .next { s with
        sr := p ++ g
        out := p ++ g
        level := ⟨true, false, g.getLsbD 0⟩
        trace := s.trace ++ showOps g p } := by
  have hclock : ((s.setLevel .latch false).record (.lineWrite .latch false)).level.clock = false := hc
  rw [runOps_showOps, runOps_bits _ _ _ _ _ hclock rfl, andThen_next, runOps_latchHigh _ _ _ _ rfl, List.foldl_append,
    foldl_chainShift_frame, showOps_eq_bits]
  simp [State.record, bitsMsbFirst]

/-- From a high clock whose DATA level is the first bit sent, that bit makes no edge: fifteen are taken in over the old
stage 0, and that is committed (R147 a). -/
theorem runOps_showOps_of_clock_high (hc : s.level.clock = true) (hv : s.level.data = p.getLsbD 7) :
    runOps c i k (showOps g p) s =
      .next { s with
        sr := BitVec.ofBool (s.sr.getLsbD 0) ++ (p ++ g).extractLsb' 0 15
        out := BitVec.ofBool (s.sr.getLsbD 0) ++ (p ++ g).extractLsb' 0 15
        level := ⟨true, false, g.getLsbD 0⟩
        trace := s.trace ++ showOps g p } := by
  have hclock : ((s.setLevel .latch false).record (.lineWrite .latch false)).level.clock = true := hc
  rw [runOps_showOps, bitsMsbFirst_eq_cons p, List.cons_append, runOps_bits_of_clock_high hclock hv,
    runOps_bits _ _ _ _ _ rfl rfl, andThen_next, runOps_latchHigh _ _ _ _ rfl, foldl_chainShift_fifteenBits,
    showOps_eq_bits, bitsMsbFirst_eq_cons p]
  simp [State.record, bitsMsbFirst]

/-- From a high clock a first bit that changes DATA faults at the list's second micro-operation (R64, R147 a). -/
theorem runOps_showOps_fault_of_clock_high (hc : s.level.clock = true) (hv : p.getLsbD 7 ≠ s.level.data) :
    runOps c i k (showOps g p) s = .fault (.dataChangeWhileClockHigh ⟨c, i, k + 1⟩) := by
  have hclock : ((s.setLevel .latch false).record (.lineWrite .latch false)).level.clock = true := hc
  rw [runOps_showOps, bitsMsbFirst_eq_cons p, List.cons_append, runOps_bits_fault_of_clock_high hclock hv,
    andThen_fault]

/-- In READY an operation is its list (R161, R23). -/
theorem exec_of_ready (i : Instr) (hf : s.fault = none) (hready : s.mode = .ready) :
    exec i s = runOps s.caller i 0 (microOps s.params i) s :=
  exec_eq_runOps i s hf (linesConfigured_of_ready hready _)

theorem exec_showDigit_of_clock_low (hf : s.fault = none) (hready : s.mode = .ready) (hc : s.level.clock = false) :
    exec (.showDigit g p) s =
      .next { s with
        sr := p ++ g
        out := p ++ g
        level := ⟨true, false, g.getLsbD 0⟩
        trace := s.trace ++ showOps g p } :=
  (exec_of_ready _ hf hready).trans (runOps_showOps_of_clock_low hc)

/-- The digits a frame energizes are those of the position's high mask bits (R32, R142). -/
theorem energized_frame (g p : Byte) (d : Fin 4) : energized (p ++ g) d = p.getLsbD (4 + d.val) := by
  rw [energized, getLsbD_twoBytes, if_neg (by omega), show 12 + d.val - 8 = 4 + d.val by omega]

/-- The segment outputs a frame drives lit are those of the segments byte's zeros (R32, R142). -/
theorem drivenLit_frame (g p : Byte) (j : Fin 8) : drivenLit (p ++ g) j = !g.getLsbD j.val := by
  rw [drivenLit, getLsbD_twoBytes, if_pos j.isLt]

end

/-- Settles O31: the list from a low clock, and the display read off the two bytes of the frame. -/
theorem showCommitsTheFrame : Obligations.ShowCommitsTheFrame := by
  unfold Obligations.ShowCommitsTheFrame
  intro g p s hf hready hc
  refine ⟨exec_showDigit_of_clock_low hf hready hc, fun d j => ⟨energized_frame g p d, ?_⟩⟩
  rw [lit, energized_frame, drivenLit_frame]

/-- Settles O32, by whether the first bit sent is the DATA level at entry. -/
theorem showFromHighClockLosesABit : Obligations.ShowFromHighClockLosesABit := by
  unfold Obligations.ShowFromHighClockLosesABit
  intro g p s hf hready hc
  rw [exec_of_ready _ hf hready]
  split_ifs with hv
  · exact runOps_showOps_of_clock_high hc hv.symm
  · exact runOps_showOps_fault_of_clock_high hc hv

/-- Settles O58: `CLR`'s list is the frame list of the blank frame, so it answers by the same two cases. -/
theorem clrFromHighClockLosesABit : Obligations.ClrFromHighClockLosesABit := by
  unfold Obligations.ClrFromHighClockLosesABit
  intro s hf hready hc
  rw [exec_of_ready _ hf hready]
  split_ifs with hv
  · exact runOps_showOps_of_clock_high hc hv.symm
  · exact runOps_showOps_fault_of_clock_high hc hv

/-- Settles O34: a `SHOW` leaves READY with a low clock, and of the state it starts from its frame keeps nothing. -/
theorem consecutiveFramesAreIndependent : Obligations.ConsecutiveFramesAreIndependent := by
  unfold Obligations.ConsecutiveFramesAreIndependent
  intro g p g' p' s hf hready hc
  have hfirst := exec_showDigit_of_clock_low (g := g) (p := p) hf hready hc
  have halone := exec_showDigit_of_clock_low (g := g') (p := p') hf hready hc
  exact ⟨_, _, _, hfirst, exec_showDigit_of_clock_low hf hready rfl, halone, rfl, rfl, rfl⟩

end Sys2Proof.Machine
end

section
/-! SUPPORT. The engine part of the way through a list, with nothing preempting: what it has done is the list's
beginning run (R27, R29, R62), and for a frame list that neither raises LATCH nor moves the outputs (R60, R143). -/

namespace Sys2Proof.Machine

section

variable {c : Context} {i : Instr} {k : Nat} {m : MicroOp} {ms ns : List MicroOp} {s : State} {moves : List HostMove}

theorem State.inFlight_of_infl {r : Option InFlight} (h : s.infl c = r) : s.inFlight s.host c r = s := by
  subst h
  cases c <;> rfl

theorem recordAt_of_ne_nil (h : ms ≠ []) : recordAt i k ms = some ⟨i, k⟩ := by
  cases ms with
  | nil => exact absurd rfl h
  | cons m ms => rfl

/-- The engine's step at the record at `k`: micro-operation `k`, and the record at `k + 1` (R29). -/
theorem engineStep_inFlight (hirq : s.inflIrq = none) (hms : (microOps s.params i).drop k = m :: ms) :
    engineStep (s.inFlight moves c (some ⟨i, k⟩)) =
      andThen (performTraced ⟨c, i, k⟩ m s) fun t => .next (t.inFlight moves c (recordAt i (k + 1) ms)) := by
  have hactive : activeContext (s.inFlight moves c (some ⟨i, k⟩)) = c := by
    cases c with
    | main => exact activeContext_main hirq
    | irq => exact activeContext_irq nofun
  have hparams : (s.inFlight moves c (some ⟨i, k⟩)).params = s.params := State.setInfl_params _ _ _
  have hm : (microOps s.params i)[k]? = some m := by
    rw [← List.head?_drop, hms, List.head?_cons]
  rw [engineStep_of_record (r := ⟨i, k⟩) hactive (State.infl_setInfl _ _ _) (hparams.symm ▸ hm), hparams,
    nextRecord_eq_recordAt hms, performTraced_inFlight, andThen_assoc]
  simp only [andThen_next, State.inFlight_setInfl]

/-- As many engine steps as a part `ms` of the list has micro-operations run that part, fault or not, and leave the
record at the rest (R27, R29). -/
theorem engineSteps_inFlight_eq_runOps (hirq : s.inflIrq = none) (hms : (microOps s.params i).drop k = ms ++ ns) :
    engineSteps ms.length (s.inFlight moves c (recordAt i k (ms ++ ns))) =
      andThen (runOps c i k ms s) fun t => .next (t.inFlight moves c (recordAt i (k + ms.length) ns)) := by
  induction ms generalizing k s with
  | nil => rfl
  | cons m ms ih =>
    rw [List.cons_append] at hms ⊢
    rw [List.length_cons, engineSteps, recordAt, engineStep_inFlight hirq hms, runOps_cons]
    cases hp : performTraced ⟨c, i, k⟩ m s with
    | fault f => rfl
    | refused x => rfl
    | next t =>
      obtain ⟨u, hu, rfl⟩ := performTraced_next.mp hp
      obtain ⟨-, hirq', -, -, -, hparams, -⟩ := perform_frame hu
      have hdrop : (microOps u.params i).drop (k + 1) = ms ++ ns := by
        rw [hparams, ← List.tail_drop, hms, List.tail_cons]
      rw [andThen_next, andThen_next, ih (s := u.record m) (hirq'.trans hirq) hdrop, Nat.add_right_comm k,
        Nat.add_assoc k, andThen_next]

/-- A list without a write of the line leaves its level. -/
theorem lastWritten_of_not_mem {l : Line} {v : Bool} (h : ∀ w, MicroOp.lineWrite l w ∉ ms) :
    lastWritten l v ms = v := by
  induction ms with
  | nil => rfl
  | cons m ms ih =>
    have hrest := ih fun w hmem => h w (List.mem_cons_of_mem m hmem)
    cases m with
    | lineWrite l' v' =>
      have hl : l' ≠ l := by
        rintro rfl
        exact h v' List.mem_cons_self
      rwa [lastWritten, if_neg hl]
    | lineDir l' => exact hrest
    | delay => exact hrest

/-- A frame list's beginning, short of its end, is LATCH low and a beginning of its bits (R140). -/
theorem take_succ_showOps (g p : Byte) {j : Nat} (hj : j ≤ 64) :
    (showOps g p).take (j + 1) = .lineWrite .latch false :: (shiftOps p ++ shiftOps g).take j := by
  rw [showOps, List.take_succ_cons, List.take_append_of_le_length (by simpa using hj)]

/-- No beginning of a frame's bits writes LATCH (R130). -/
theorem latch_not_mem_take_bits (g p : Byte) (j : Nat) (v : Bool) :
    MicroOp.lineWrite .latch v ∉ (shiftOps p ++ shiftOps g).take j := fun hmem =>
  absurd (((writesOnly_shiftOps p).append (writesOnly_shiftOps g)).mem_lines (List.mem_of_mem_take hmem)) (by decide)

/-- Before the last micro-operation of a frame list the outputs are as they were and LATCH is low (R60, R143). -/
theorem runOps_take_showOps {g p : Byte} {j : Nat} {t : State} (hj : j ≤ 64)
    (h : runOps c i k ((showOps g p).take (j + 1)) s = .next t) : t.out = s.out ∧ t.level.latch = false := by
  rw [take_succ_showOps g p hj] at h
  refine ⟨runOps_out h ?_, ((runOps_extends h).level .latch).trans ?_⟩
  · simp [latch_not_mem_take_bits]
  · exact lastWritten_of_not_mem (latch_not_mem_take_bits g p j)

/-- From a low clock every beginning of a frame list runs without a fault. -/
theorem exists_runOps_take_showOps (g p : Byte) (hc : s.level.clock = false) (n : Nat) :
    ∃ t, runOps c i k ((showOps g p).take n) s = .next t := by
  have hwhole := runOps_showOps_of_clock_low (c := c) (i := i) (k := k) (g := g) (p := p) hc
  rw [← List.take_append_drop n (showOps g p), runOps_append, andThen_eq_next] at hwhole
  obtain ⟨t, ht, -⟩ := hwhole
  exact ⟨t, ht⟩

end

/-- The first `n` engine steps of a `SHOW` of MAIN's run the first `n` micro-operations of its list. -/
theorem engineSteps_showDigit {g p : Byte} {s t : State} {n : Nat} (hn : n ≤ 66) (hirq : s.inflIrq = none)
    (hmain : s.inflMain = some ⟨.showDigit g p, 0⟩)
    (h : runOps .main (.showDigit g p) 0 ((showOps g p).take n) s = .next t) :
    engineSteps n s = .next (t.inFlight s.host .main (recordAt (.showDigit g p) n ((showOps g p).drop n))) := by
  have hlen : ((showOps g p).take n).length = n := by simpa using hn
  have hsteps := engineSteps_inFlight_eq_runOps (c := .main) (k := 0) (i := .showDigit g p) (moves := s.host) hirq
    (List.take_append_drop n (showOps g p)).symm
  have hstart : s.inFlight s.host .main (recordAt (.showDigit g p) 0 (showOps g p)) = s :=
    State.inFlight_of_infl hmain
  rwa [List.take_append_drop, hstart, h, hlen, andThen_next, Nat.zero_add] at hsteps

/-- Settles O33: the first 65 micro-operations hold no write of LATCH high, and the 66th is the commit. -/
theorem noPartialFrameIsShown : Obligations.NoPartialFrameIsShown := by
  unfold Obligations.NoPartialFrameIsShown
  intro g p s hc hirq hmain
  refine ⟨fun n hn => ?_, ?_⟩
  · cases n with
    | zero => exact ⟨s, rfl, rfl, hmain, absurd rfl⟩
    | succ j =>
      obtain ⟨t, ht⟩ := exists_runOps_take_showOps (c := .main) (i := .showDigit g p) (k := 0) g p hc (j + 1)
      obtain ⟨hout, hlatch⟩ := runOps_take_showOps (by omega) ht
      have hrest : (showOps g p).drop (j + 1) ≠ [] := by simp; omega
      exact ⟨_, engineSteps_showDigit (by omega) hirq hmain ht, hout, recordAt_of_ne_nil hrest, fun _ => hlatch⟩
  · have hwhole := runOps_showOps_of_clock_low (c := .main) (i := .showDigit g p) (k := 0) (g := g) (p := p) hc
    rw [← List.take_of_length_le (length_showOps g p).le] at hwhole
    have hdone : recordAt (.showDigit g p) 66 ((showOps g p).drop 66) = none := by
      rw [List.drop_of_length_le (length_showOps g p).le, recordAt]
    exact ⟨_, engineSteps_showDigit (by omega) hirq hmain hwhole, rfl, hdone, rfl⟩

end Sys2Proof.Machine
end

section
/-! SUPPORT. Initialization and clear: `INIT` as one equation, the blank frame of `CLR` (R32, R90, R151), and the two
sides of READY: what no admitted list faults with (R154, R161) and what no step undoes (R155). -/

namespace Sys2Proof.Machine

section

variable {c : Context} {i : Instr} {s t : State} {site : Site}

/-- No micro-operation faults `UseBeforeInit`: its faults are the two of R64 and R65. -/
theorem perform_not_useBeforeInit {site' : Site} {m : MicroOp} : perform site m s ≠ .fault (.useBeforeInit site') := by
  cases m with
  | lineWrite l v =>
    intro h
    obtain ⟨-, -, -, hf⟩ | ⟨-, -, -, -, hf⟩ := lineWrite_fault h <;> cases hf
  | lineDir l => nofun
  | delay => nofun

theorem runOps_not_useBeforeInit {k : Nat} {ms : List MicroOp} : runOps c i k ms s ≠ .fault (.useBeforeInit site) := by
  intro h
  obtain ⟨_, _, _, -, -, hf, -⟩ := runOps_fault h
  exact perform_not_useBeforeInit hf

/-- `UseBeforeInit` is the answer of the admission check and of nothing else (R161). -/
theorem exec_eq_useBeforeInit_iff (hf : s.fault = none) :
    exec i s = .fault (.useBeforeInit ⟨s.caller, i, 0⟩) ↔ linesConfigured (linesNeeded i) s = false := by
  rw [exec_eq_runOperation]
  obtain ⟨f, hmark, -⟩ | ⟨-, hl, he⟩ | ⟨-, hl, he⟩ := runOperation_cases i (linesNeeded i) (microOps s.params i) s
  · simp [hf] at hmark
  · simp [hl, he]
  · simp [hl, he, runOps_not_useBeforeInit]

theorem linesConfigured_eq_false_iff {lines : List Line} :
    linesConfigured lines s = false ↔ ∃ l ∈ lines, s.dir.get l ≠ .out := by
  simp [linesConfigured]

/-- A frame needs all three lines, which is READY (R23, R161). -/
theorem linesConfigured_frameLines_eq_false_iff : linesConfigured frameLines s = false ↔ s.mode ≠ .ready := by
  rw [← Bool.not_eq_true, linesConfigured_iff, Ne, State.mode_eq_ready]
  simp [frameLines]

/-- READY stays where no line is un-configured (R23, R155). -/
theorem mode_ready_of_dir_kept (hdir : ∀ l, s.dir.get l = .out → t.dir.get l = .out) (h : s.mode = .ready) :
    t.mode = .ready := by
  obtain ⟨hlatch, hclock, hdata⟩ := (State.mode_eq_ready s).mp h
  exact (State.mode_eq_ready t).mpr ⟨hdir .latch hlatch, hdir .clock hclock, hdir .data hdata⟩

theorem dir_of_ready (h : s.mode = .ready) : s.dir = ⟨.out, .out, .out⟩ := by
  obtain ⟨hlatch, hclock, hdata⟩ := (State.mode_eq_ready s).mp h
  exact PerLine.ext_get fun
    | .latch => hlatch
    | .clock => hclock
    | .data => hdata

/-- `INIT` in every state without a fault mark (R150, R161). -/
theorem exec_init (hf : s.fault = none) :
    exec .init s = .next { s with dir := ⟨.out, .out, .out⟩, trace := s.trace ++ initOps } := by
  have hrun : exec .init s = runOps s.caller .init 0 initOps s := exec_eq_runOps .init s hf rfl
  rw [hrun]
  simp [initOps, runOps, performTraced, perform, State.configure, State.record]

/-- A frame whose segments byte is all ones lights no segment, whichever digits it energizes (R32, R90). -/
theorem lit_blank_frame (p : Byte) (d : Fin 4) (j : Fin 8) : lit (p ++ 0xFF#8) d j = false := by
  have hunlit : ∀ j : Fin 8, (!(0xFF#8).getLsbD j.val) = false := by decide
  rw [lit, drivenLit_frame, hunlit, Bool.and_false]

theorem not_litAt_of_unlit {Place : Type} (m : Config.SegMap) (d : Config.DigitMap Place) {out : Frame}
    (h : ∀ k j, lit out k j = false) (x : Place) (y : Config.Segment) : ¬ litAt m d out x y := by
  rintro ⟨k, j, -, -, hlit⟩
  exact Bool.false_ne_true ((h k j).symm.trans hlit)

end

/-- Settles O23: the fault is the admission check's, which asks for the lines of each row of the table. -/
theorem useBeforeInitTable : Obligations.UseBeforeInitTable := by
  unfold Obligations.UseBeforeInitTable
  intro i s hf
  rw [exec_eq_useBeforeInit_iff hf]
  cases i with
  | init => simp [linesConfigured_eq_false_iff, linesNeeded, initLines]
  | showDigit g p => exact linesConfigured_frameLines_eq_false_iff
  | clr => exact linesConfigured_frameLines_eq_false_iff
  | shift b => simp [linesConfigured_eq_false_iff, linesNeeded, shiftLines]
  | pulse => simp [linesConfigured_eq_false_iff, linesNeeded, pulseLines]
  | setLine l v => simp [linesConfigured_eq_false_iff, linesNeeded, setLines]
  | cfgout l => simp [linesConfigured_eq_false_iff, linesNeeded, cfgoutLines]

/-- Settles O40: `CLR`'s list is a frame list, and a blank segments byte lights nothing. -/
theorem clrCommitsTheBlankFrame : Obligations.ClrCommitsTheBlankFrame := by
  unfold Obligations.ClrCommitsTheBlankFrame
  intro s hf hready hc
  have hunlit := lit_blank_frame s.params.clrPosition
  exact ⟨_, (exec_of_ready .clr hf hready).trans (runOps_showOps_of_clock_low hc), rfl, hunlit,
    fun _ m d => not_litAt_of_unlit m d hunlit⟩

/-- Settles O45: every step performs some list of micro-operations, and none of these un-configures a line. -/
theorem noStepUnconfiguresALine : Obligations.NoStepUnconfiguresALine := by
  unfold Obligations.NoStepUnconfiguresALine
  intro s t h
  obtain ⟨-, ms, hext⟩ := step_extends h
  exact ⟨hext.dir, mode_ready_of_dir_kept hext.dir⟩

/-- Settles O38: `INIT` writes the directions and the trace, and in READY the directions are as `INIT` writes them. -/
theorem initConfiguresAllLines : Obligations.InitConfiguresAllLines := by
  unfold Obligations.InitConfiguresAllLines
  intro s hf
  refine ⟨exec_init hf, fun hready => ?_⟩
  rw [exec_init hf, ← dir_of_ready hready]
  rfl

/-- Settles O39: reset leaves no fault mark, and `INIT` writes neither the load nor the levels. -/
theorem initLeavesTheDisplayUndefined : Obligations.InitLeavesTheDisplayUndefined := by
  unfold Obligations.InitLeavesTheDisplayUndefined
  intro p sr out
  exact ⟨_, exec_init rfl, rfl, rfl, rfl⟩

end Sys2Proof.Machine
end

section
/-! SUPPORT. Issue, call and fault: what a host's move that is enabled or waits makes of the step (R165 to R168), and the
state a fault leaves, which the issue and the engine's steps before the fault reach as well (R161, R170). -/

namespace Sys2Proof.Machine

section

variable {c : Context} {i : Instr} {k : Nat} {m : MicroOp} {ms ns : List MicroOp} {s t u : State} {f : Fault}
  {w : CommandWord} {moves : List HostMove}

/-! The host's move. -/

theorem issueEnabled_main : issueEnabled .main s = true ↔ s.inflMain = none ∧ s.inflIrq = none := by
  simp [issueEnabled]

theorem issueEnabled_irq :
    issueEnabled .irq s = true ↔ s.inflIrq = none ∧ (s.params.hostExclusive = false ∨ s.inflMain = none) := by
  simp [issueEnabled]

/-- An issue or call that is not enabled stays where it is, and the engine takes the step (R166, R168; log 1). -/
theorem step_of_not_issueEnabled (hf : s.fault = none)
    (hh : s.host = .issue c w :: moves ∨ s.host = .call c w :: moves) (he : ¬ issueEnabled c s = true) :
    step s = engineStep s := by
  have hd : deliver s = .engine s := by
    obtain hh | hh := hh <;> simp only [deliver, hh, if_neg he]
  simp only [step, hf, hd]

theorem engineStep_host (h : engineStep s = .next t) : t.host = s.host := by
  obtain ⟨-, rfl⟩ | ⟨r, -, -, rfl⟩ | ⟨r, m, u, -, -, hu, rfl⟩ := engineStep_next h
  · rfl
  · exact State.setInfl_host _ _ _
  · obtain ⟨-, -, -, -, -, -, hhost, -, -⟩ := perform_frame hu
    exact (State.setInfl_host _ _ _).trans hhost

/-- The step that delivers an enabled issue of an admitted operation makes its record at STEP 0 (R166). -/
theorem step_issue_admitted (hf : s.fault = none) (hh : s.host = .issue c w :: moves)
    (he : issueEnabled c s = true) (hw : decode w = .ok i) (hl : linesConfigured (linesNeeded i) s = true) :
    step s = .next ((s.afterMove moves c).setInfl c (some ⟨i, 0⟩)) :=
  (step_issue hf hh he hw).trans (if_pos hl)

theorem deliver_call (hh : s.host = .call c w :: moves) (he : issueEnabled c s = true) (hw : decode w = .ok i) :
    deliver s = .call i (s.afterMove moves c) := by
  simp [deliver, hh, he, hw]

theorem decode_of_decodeTableWord {nbits n : Nat} (h : decodeTableWord nbits n = some i) :
    decode (tableWord nbits n) = .ok i := by
  unfold decodeTableWord at h
  split at h
  next j hj => cases h; exact hj
  next => cases h

/-! The state a fault leaves. -/

theorem advance_of_step_fault (h : step s = .fault f) : advance s = (faultState s).halt f := by
  simp only [advance, h]

theorem faultState_of_fault (hf : s.fault = some f) : faultState s = s := by
  simp only [faultState, hf]

theorem State.halt_of_fault (hf : s.fault = some f) : s.halt f = s := by
  rw [State.halt, ← hf]

theorem faultState_of_refused_call (hf : s.fault = none) (hd : deliver s = .call i t)
    (hl : linesConfigured (linesNeeded i) t = false) : faultState s = t := by
  simp [faultState, hf, hd, hl]

theorem faultState_of_admitted_call (hf : s.fault = none) (hd : deliver s = .call i t)
    (hl : linesConfigured (linesNeeded i) t = true) :
    faultState s = faultPoint t.caller i 0 (microOps t.params i) t := by
  simp [faultState, hf, hd, hl]

/-- A step that delivers no call leaves, if it faults, just the state with the move delivered (R161, R170). -/
theorem faultState_of_no_call (hf : s.fault = none) (hd : ∀ i t, deliver s ≠ .call i t) :
    ∃ moves c, faultState s = s.afterMove moves c := by
  obtain ⟨moves, c, h | h | ⟨r, h⟩ | ⟨i, -, h⟩ | ⟨i, -, h⟩⟩ := deliver_cases s
  · exact ⟨moves, c, by simp only [faultState, hf, h]⟩
  · exact ⟨moves, c, by simp only [faultState, hf, h]⟩
  · exact ⟨moves, s.caller, by simp only [faultState, hf, h]⟩
  · exact ⟨moves, c, by simp only [faultState, hf, h]⟩
  · exact absurd h (hd _ _)

/-- A micro-operation faults by R64 or R65 alone, and names its site. -/
theorem perform_fault {site : Site} (h : perform site m s = .fault f) :
    f = .dataChangeWhileClockHigh site ∨ f = .shiftWhileLatchHigh site := by
  cases m with
  | lineWrite l v => exact (lineWrite_fault h).imp (fun ⟨_, _, _, hf⟩ => hf) fun ⟨_, _, _, _, hf⟩ => hf
  | lineDir l => cases h
  | delay => cases h

/-- A host that lets the engine perform a part `ms` of a record's list sees just that part run, fault or not, with the
record left at the rest (R27, R29). -/
theorem stepsFrom_inFlight_append (hf : s.fault = none) (hirq : s.inflIrq = none)
    (hms : (microOps s.params i).drop k = ms ++ ns) :
    stepsFrom ms.length (s.inFlight (List.replicate ms.length .pass ++ moves) c (recordAt i k (ms ++ ns))) =
      andThen (runOps c i k ms s) fun t => .next (t.inFlight moves c (recordAt i (k + ms.length) ns)) := by
  induction ms generalizing k s with
  | nil => rfl
  | cons m ms ih =>
    rw [List.cons_append] at hms ⊢
    rw [List.length_cons, List.replicate_succ, List.cons_append, stepsFrom, recordAt, step_inFlight_pass hf hirq hms,
      runOps_cons]
    cases hp : performTraced ⟨c, i, k⟩ m s with
    | fault f => rfl
    | refused x => rfl
    | next t =>
      obtain ⟨u, hu, rfl⟩ := performTraced_next.mp hp
      obtain ⟨-, hirq', hfault, -, -, hparams, -⟩ := perform_frame hu
      have hdrop : (microOps u.params i).drop (k + 1) = ms ++ ns := by
        rw [hparams, ← List.tail_drop, hms, List.tail_cons]
      rw [andThen_next, andThen_next, ih (s := u.record m) (hfault.trans hf) (hirq'.trans hirq) hdrop,
        Nat.add_right_comm k, Nat.add_assoc k, andThen_next]

/-- An admitted issue and `k` passes, where the first `k` micro-operations run, leave these performed and the record at
the `k`-th (R29, R166). -/
theorem stepsFrom_issue_passes (hf : s.fault = none) (he : issueEnabled c s = true) (hw : decode w = .ok i)
    (hl : linesConfigured (linesNeeded i) s = true) (hk : k < (microOps s.params i).length)
    (hrun : runOps c i 0 ((microOps s.params i).take k) (s.afterMove moves c) = .next u) :
    stepsFrom (k + 1) { s with host := .issue c w :: (List.replicate k .pass ++ moves) } =
      .next (u.setInfl c (some ⟨i, k⟩)) := by
  obtain ⟨-, hirq⟩ := issueEnabled_free he
  obtain ⟨-, -, -, -, -, -, hhost, -, -⟩ := runOps_frame hrun
  set first := (microOps s.params i).take k
  set rest := (microOps s.params i).drop k
  have hops : first ++ rest = microOps s.params i := List.take_append_drop k _
  have hlen : first.length = k := List.length_take_of_le hk.le
  have hne : rest ≠ [] := by simpa [rest] using hk
  have hops_ne : first ++ rest ≠ [] := List.append_ne_nil_of_right_ne_nil _ hne
  have hpasses := stepsFrom_inFlight_append (s := s.afterMove moves c) (c := c) (k := 0) (moves := moves) hf hirq
    hops.symm
  rw [recordAt_of_ne_nil hops_ne, recordAt_of_ne_nil hne, hrun, andThen_next, hlen, Nat.zero_add] at hpasses
  have hissue := step_issue_admitted
    (s := { s with host := .issue c w :: (List.replicate k .pass ++ moves) }) hf rfl he hw hl
  have hu : u.inFlight moves c (some ⟨i, k⟩) = u.setInfl c (some ⟨i, k⟩) :=
    congrArg (fun moves => u.inFlight moves c (some ⟨i, k⟩)) hhost.symm
  rw [stepsFrom, hissue, andThen_next, ← hu]
  exact hpasses

/-- A called operation that was admitted and faults does so at some STEP `k`, in the state that its issue and `k` passes
reach (R170; log 3, log 12). -/
theorem admitted_call_fault (hf : s.fault = none) (he : issueEnabled c s = true) (hw : decode w = .ok i)
    (hl : linesConfigured (linesNeeded i) s = true)
    (h : runOps c i 0 (microOps s.params i) (s.afterMove moves c) = .fault f) :
    ∃ k t, k < (microOps s.params i).length ∧
      (f = .dataChangeWhileClockHigh ⟨c, i, k⟩ ∨ f = .shiftWhileLatchHigh ⟨c, i, k⟩) ∧
      stepsFrom (k + 1) { s with host := .issue c w :: (List.replicate k .pass ++ moves) } = .next t ∧
      t.trace = s.trace ++ (microOps s.params i).take k ∧ t.infl c = some ⟨i, k⟩ ∧ engineStep t = .fault f ∧
      faultPoint c i 0 (microOps s.params i) (s.afterMove moves c) = t := by
  obtain ⟨-, hirq⟩ := issueEnabled_free he
  obtain ⟨k, m, u, hm, hrun, hfault, hpoint⟩ := runOps_fault h
  rw [Nat.zero_add] at hfault hpoint
  obtain ⟨hk, hget⟩ := List.getElem?_eq_some_iff.mp hm
  obtain ⟨-, hirq', -, -, htrace, hparams, -⟩ := runOps_frame hrun
  have hdrop : (microOps u.params i).drop k = m :: (microOps u.params i).drop (k + 1) := by
    rw [hparams, ← hget]
    exact List.drop_eq_getElem_cons hk
  have hengine : engineStep (u.setInfl c (some ⟨i, k⟩)) = .fault f := by
    have hstep := engineStep_inFlight (c := c) (moves := u.host) (hirq'.trans hirq) hdrop
    rwa [performTraced, hfault] at hstep
  exact ⟨k, _, hk, perform_fault hfault, stepsFrom_issue_passes hf he hw hl hk hrun,
    (State.setInfl_trace _ _ _).trans htrace, State.infl_setInfl _ _ _, hengine, hpoint⟩

end

/-- Settles O57: a call that faults is refused admission, or stops in the list at the state its issue and passes reach;
any other faulting step leaves the state with the move delivered. -/
theorem faultIsPrecise : Obligations.FaultIsPrecise := by
  unfold Obligations.FaultIsPrecise
  refine ⟨fun s c w i rest f hf he hw hh hstep => ?_, fun s f hf hstep hd => ?_⟩
  · have hd := deliver_call hh he hw
    rw [advance_of_step_fault hstep]
    rw [step_call hf hh he hw, exec_eq_runOperation] at hstep
    obtain ⟨f', hmark, -⟩ | ⟨-, hl, hrun⟩ | ⟨-, hl, hrun⟩ :=
      runOperation_cases i (linesNeeded i) (microOps s.params i) (s.afterMove rest c)
    · exact absurd (hf.symm.trans hmark) nofun
    · cases hrun.symm.trans hstep
      rw [faultState_of_refused_call hf hd hl]
      exact .inl ⟨rfl, rfl⟩
    · obtain ⟨k, t, hk, hfault, hsteps, htrace, hinfl, hengine, hpoint⟩ :=
        admitted_call_fault hf he hw hl (hrun.symm.trans hstep)
      have hstate : faultState s = t := (faultState_of_admitted_call hf hd hl).trans hpoint
      exact .inr ⟨k, t, hk, hfault, hsteps, htrace, hinfl, hengine, congrArg (State.halt · f) hstate⟩
  · obtain ⟨moves, c, hstate⟩ := faultState_of_no_call hf hd
    rw [advance_of_step_fault hstep, hstate]
    rfl

/-- Settles O5: the delivered call is the operation, and a placed word is MAIN's next call, with nothing in flight. -/
theorem stepRunsTheCalledOperation : Obligations.StepRunsTheCalledOperation := by
  unfold Obligations.StepRunsTheCalledOperation
  exact ⟨fun s c w i rest hf hh he hw => step_call hf hh he hw,
    fun s nbits n i hn => step_call rfl rfl rfl (decode_of_decodeTableWord hn)⟩

/-- Settles O7: an admitted issue is the record at STEP 0, in either context. -/
theorem issueMakesTheRecordOnly : Obligations.IssueMakesTheRecordOnly := by
  unfold Obligations.IssueMakesTheRecordOnly
  intro s w i rest hf hw hl
  exact ⟨fun he hh => step_issue_admitted hf hh he hw hl, fun he hh => step_issue_admitted hf hh he hw hl⟩

/-- Settles O8: when an issue is enabled, for each context, and the engine's step while one that is not waits. -/
theorem issueNotEnabledWaits : Obligations.IssueNotEnabledWaits := by
  unfold Obligations.IssueNotEnabledWaits
  refine fun s => ⟨issueEnabled_main, issueEnabled_irq, fun c w rest hf hh hbusy => ?_⟩
  refine ⟨step_of_not_issueEnabled hf hh fun he => ?_, fun t => engineStep_host⟩
  obtain ⟨rfl, hbusy⟩ | ⟨rfl, hbusy⟩ := hbusy
  · obtain ⟨hmain, hirq⟩ := issueEnabled_main.mp he
    exact hbusy.elim (· hmain) (· hirq)
  · obtain ⟨hirq, hfree⟩ := issueEnabled_irq.mp he
    obtain hbusy | ⟨hx, hmain⟩ := hbusy
    · exact hbusy hirq
    · exact hfree.elim (fun hnx => Bool.false_ne_true (hnx.symm.trans hx)) hmain

/-- Settles O24: operation by operation, admission asks for what the list writes. -/
theorem admissionCoversEveryLineWritten : Obligations.AdmissionCoversEveryLineWritten := by
  unfold Obligations.AdmissionCoversEveryLineWritten
  exact fun _ _ _ _ => mem_linesNeeded_of_lineWrite_mem

/-- Settles O25: step and operation answer the mark's fault, and that fault leaves the state as it is. -/
theorem faultedStateIsQuiescent : Obligations.FaultedStateIsQuiescent := by
  unfold Obligations.FaultedStateIsQuiescent
  intro s f hf
  have hstep : step s = .fault f := by simp only [step, hf]
  refine ⟨hstep, ?_, fun i => exec_of_fault hf⟩
  rw [advance_of_step_fault hstep, faultState_of_fault hf, State.halt_of_fault hf]

end Sys2Proof.Machine
end

section
/-! SUPPORT. The entry condition of a frame: what sets it up after reset, what keeps it, and the runs that no interrupt
cuts in on, which end with it (R37, R193, R208). -/

namespace Sys2Proof.Machine

section

variable {c : Context} {i : Instr} {k : Nat} {ms : List MicroOp} {g p : Byte} {s t : State} {w : CommandWord}
  {moves : List HostMove}

/-- A frame list run from its entry condition commits its frame, leaves LATCH high and meets the condition again
(R142, R208). -/
theorem FrameEntry.runOps_showOps (h : FrameEntry s) :
    ∃ t, runOps c i k (showOps g p) s = .next t ∧ FrameEntry t ∧ t.level.latch = true ∧ t.out = p ++ g := by
  obtain ⟨hmark, hidle, hready, hclock⟩ := h
  exact ⟨_, runOps_showOps_of_clock_low hclock, ⟨hmark, hidle, hready, rfl⟩, rfl, rfl⟩

theorem not_shiftEntry_of_latch_high (h : s.level.latch = true) : ¬ ShiftEntry s :=
  fun ⟨⟨_, _, _, _, hlow⟩, _⟩ => Bool.false_ne_true (hlow.symm.trans h)

/-- An operation whose list is a frame keeps the entry condition of a frame and breaks that of a direct `SHIFT`
(R208). -/
theorem FrameEntry.exec_frame (h : FrameEntry s) (hops : microOps s.params i = showOps g p) :
    ∃ t, exec i s = .next t ∧ FrameEntry t ∧ ¬ ShiftEntry t := by
  obtain ⟨t, hrun, hentry, hlatch, -⟩ := h.runOps_showOps (c := s.caller) (i := i) (k := 0) (g := g) (p := p)
  obtain ⟨⟨hf, -⟩, -, hready, -⟩ := h
  rw [exec_of_ready i hf hready, hops]
  exact ⟨t, hrun, hentry, not_shiftEntry_of_latch_high hlatch⟩

/-- While MAIN's operation is in flight a step is the engine's, unless the host delivers an `Issue` of IRQ's that is
enabled (R166 to R168). -/
theorem deliver_of_main_in_flight (h : s.inflMain.isSome = true) :
    (∃ moves, deliver s = .engine { s with host := moves }) ∨ issueEnabled .irq s = true ∧ irqDelivered s = true := by
  have hmain : s.inflMain ≠ none := Option.isSome_iff_ne_none.mp h
  have hirq : ∀ c, issueEnabled c s = true → c = .irq := by
    rintro (_ | _) he
    · exact absurd (issueEnabled_main.mp he).1 hmain
    · rfl
  unfold irqDelivered deliver
  split
  next => exact .inl ⟨s.host, engineTurn_of_not_idle fun hi => hmain hi.1⟩
  next rest _ => exact .inl ⟨rest, engineTurn_of_not_idle fun hi => hmain hi.1⟩
  next c w rest _ =>
    split
    next he =>
      obtain rfl := hirq c he
      exact .inr ⟨he, by cases decode w <;> rfl⟩
    next => exact .inl ⟨s.host, rfl⟩
  next c w rest _ =>
    split
    next he =>
      obtain rfl := hirq c he
      exact .inr ⟨he, by cases decode w <;> rfl⟩
    next => exact .inl ⟨s.host, rfl⟩

/-- An exclusive host delivers nothing of IRQ's while MAIN's operation is in flight (R166, R196). -/
theorem irqDelivered_eq_false_of_exclusive (hx : s.params.hostExclusive = true) (h : s.inflMain.isSome = true) :
    irqDelivered s = false := by
  obtain ⟨moves, hd⟩ | ⟨he, -⟩ := deliver_of_main_in_flight h
  · rw [irqDelivered, hd]
  · obtain ⟨hmain, -⟩ := issueEnabled_idle he hx
    simp [hmain] at h

theorem unpreempted_of_exclusive (n : Nat) (hx : s.params.hostExclusive = true) : Unpreempted n s := by
  induction n generalizing s with
  | zero => trivial
  | succ n ih =>
    refine ⟨irqDelivered_eq_false_of_exclusive hx, ?_⟩
    cases hs : step s with
    | next t =>
      obtain ⟨-, ms, hext⟩ := step_extends hs
      exact ih (hext.params ▸ hx)
    | fault f => trivial
    | refused x => trivial

theorem Unpreempted.of_step {n : Nat} (h : Unpreempted (n + 1) s) (hs : step s = .next t) : Unpreempted n t := by
  obtain ⟨-, hrest⟩ := h
  rwa [hs] at hrest

/-- An unpreempted step with MAIN's operation in flight is the engine's, whatever the host's next move (R166, R208). -/
theorem step_of_unpreempted {n : Nat} (hf : s.fault = none) (hmain : s.inflMain.isSome = true)
    (h : Unpreempted (n + 1) s) : ∃ moves, step s = engineStep { s with host := moves } := by
  obtain ⟨hquiet, -⟩ := h
  obtain ⟨moves, hd⟩ | ⟨-, hirq⟩ := deliver_of_main_in_flight hmain
  · exact ⟨moves, by simp only [step, hf, hd]⟩
  · exact absurd (hquiet hmain) (by simp [hirq])

/-- MAIN's record run unpreempted to the end of its list is that list run; of the host's moves some are then taken. -/
theorem stepsFrom_inFlight_of_unpreempted (hf : s.fault = none) (hirq : s.inflIrq = none)
    (hms : (microOps s.params i).drop k = ms) (hrun : runOps .main i k ms s = .next t)
    (hu : Unpreempted ms.length (s.inFlight moves .main (recordAt i k ms))) :
    ∃ left, stepsFrom ms.length (s.inFlight moves .main (recordAt i k ms)) = .next (t.inFlight left .main none) := by
  induction ms generalizing k s moves with
  | nil =>
    cases hrun
    exact ⟨moves, rfl⟩
  | cons m ms ih =>
    obtain ⟨left, hstep⟩ := step_of_unpreempted (s := s.inFlight moves .main (some ⟨i, k⟩)) hf rfl hu
    have hengine := engineStep_inFlight (c := .main) (moves := left) hirq hms
    rw [runOps_cons, andThen_eq_next] at hrun
    obtain ⟨v, hv, hrest⟩ := hrun
    obtain ⟨u, hperform, rfl⟩ := performTraced_next.mp hv
    obtain ⟨-, hirq', hfault, -, -, hparams, -⟩ := perform_frame hperform
    rw [hv, andThen_next] at hengine
    have hnext := hstep.trans hengine
    have hdrop : (microOps u.params i).drop (k + 1) = ms := by
      rw [hparams, ← List.tail_drop, hms, List.tail_cons]
    obtain ⟨left', hsteps⟩ := ih (s := u.record m) (hfault.trans hf) (hirq'.trans hirq) hdrop hrest (hu.of_step hnext)
    refine ⟨left', ?_⟩
    rw [recordAt, List.length_cons, stepsFrom, hnext, andThen_next, hsteps]

/-- An operation of MAIN's whose list is a frame, issued in the entry condition and run unpreempted, has committed that
frame and meets the condition again (R37, R208). -/
theorem FrameEntry.stepsFrom_issue (h : FrameEntry s) (hh : s.host = .issue .main w :: moves) (hw : decode w = .ok i)
    (hops : microOps s.params i = showOps g p) (hu : Unpreempted 67 s) :
    ∃ t, stepsFrom 67 s = .next t ∧ FrameEntry t ∧ t.out = p ++ g := by
  have hentry : FrameEntry (s.afterMove moves .main) := h
  obtain ⟨t, hrun, ⟨hmark, ⟨-, hirq'⟩, hready', hclock⟩, -, hout⟩ :=
    hentry.runOps_showOps (c := .main) (i := i) (k := 0) (g := g) (p := p)
  obtain ⟨⟨hf, -⟩, ⟨hmain, hirq⟩, hready, -⟩ := h
  have hstep := step_issue_admitted hf hh (issueEnabled_main.mpr ⟨hmain, hirq⟩) hw (linesConfigured_of_ready hready _)
  obtain ⟨left, hsteps⟩ := stepsFrom_inFlight_of_unpreempted (s := s.afterMove moves .main) (moves := moves) (k := 0)
    hf hirq hops hrun (hu.of_step hstep)
  refine ⟨t.inFlight left .main none, ?_, ⟨hmark, ⟨rfl, hirq'⟩, hready', hclock⟩, hout⟩
  rw [stepsFrom, hstep, andThen_next]
  exact hsteps

end

/-- Settles O43: `INIT` writes the directions alone, and `SHOW` and `CLR` end with CLOCK low and LATCH high. -/
theorem frameEntryIsKept : Obligations.FrameEntryIsKept := by
  unfold Obligations.FrameEntryIsKept
  intro s h
  refine ⟨?_, h.exec_frame rfl, fun g p => h.exec_frame rfl⟩
  obtain ⟨⟨hf, hrefused⟩, hidle, -, hclock⟩ := h
  exact ⟨_, exec_init hf, ⟨hf, hrefused⟩, hidle, rfl, hclock⟩

/-- Settles O42: of the entry condition, reset and `INIT` leave only the level of CLOCK open. -/
theorem firstFrameNeedsALowClock : Obligations.FirstFrameNeedsALowClock := by
  unfold Obligations.FirstFrameNeedsALowClock
  intro p sr out
  exact ⟨_, exec_init rfl, fun ⟨_, _, _, hclock⟩ => hclock, fun hclock => ⟨⟨rfl, rfl⟩, ⟨rfl, rfl⟩, rfl, hclock⟩⟩

/-- Settles O59: exclusion keeps IRQ's moves waiting; and with none of them delivered every step is the engine's, so the
frame list runs to its end. -/
theorem unpreemptedFrameKeepsFrameEntry : Obligations.UnpreemptedFrameKeepsFrameEntry := by
  unfold Obligations.UnpreemptedFrameKeepsFrameEntry
  refine ⟨fun n _ => unpreempted_of_exclusive n, fun s w i rest h hh hw hi hu => ?_⟩
  obtain rfl | ⟨g, p, rfl⟩ := hi
  · obtain ⟨t, hsteps, hentry, hout⟩ := h.stepsFrom_issue hh hw rfl hu
    exact ⟨t, hsteps, hentry, nofun, fun _ => hout⟩
  · obtain ⟨t, hsteps, hentry, hout⟩ := h.stepsFrom_issue hh hw rfl hu
    exact ⟨t, hsteps, hentry, fun _ _ heq => by cases heq; exact hout, nofun⟩

end Sys2Proof.Machine
end

section
/-! SUPPORT. Preemption of a main-line frame (R197): the levels a frame list stands at between two micro-operations, the
frame IRQ's call commits or the fault it meets there, and what becomes of MAIN's list when it goes on under the high
latch that frame leaves. -/

namespace Sys2Proof.Machine

/-! A frame list between two of its micro-operations. -/

section

variable {c : Context} {i : Instr} {k n r : Nat} {v : Bool} {xs ms ns : List MicroOp} {g p : Byte} {s t : State}

theorem length_bits (bits : List Bool) : (bits.flatMap bitOps).length = 4 * bits.length := by
  induction bits with
  | nil => rfl
  | cons v bits ih =>
    rw [List.flatMap_cons, List.length_append, ih, List.length_cons]
    exact (Nat.add_comm 4 _)

/-- A frame list cut before its `n`-th bit: LATCH low and `n` bits sent, then the bits left and the commit (R140). -/
theorem showOps_cut_before_bit (g p : Byte) (hn : n ≤ 16) :
    (showOps g p).take (4 * n + 1) =
        .lineWrite .latch false :: ((bitsMsbFirst p ++ bitsMsbFirst g).take n).flatMap bitOps ∧
      (showOps g p).drop (4 * n + 1) =
        ((bitsMsbFirst p ++ bitsMsbFirst g).drop n).flatMap bitOps ++ [.lineWrite .latch true] := by
  set bits := bitsMsbFirst p ++ bitsMsbFirst g with hbits
  have hlen : ((bits.take n).flatMap bitOps).length = 4 * n := by
    rw [length_bits, List.length_take_of_le hn]
  have hcut : showOps g p = .lineWrite .latch false :: ((bits.take n).flatMap bitOps ++
      ((bits.drop n).flatMap bitOps ++ [.lineWrite .latch true])) := by
    rw [showOps_eq_bits, ← hbits, ← List.append_assoc, ← List.flatMap_append, List.take_append_drop]
  rw [hcut, List.take_succ_cons, List.drop_succ_cons, List.take_left' hlen, List.drop_left' hlen]
  exact ⟨rfl, rfl⟩

/-- What a frame list has left from its `n`-th bit on: that bit, then what it has left from the next one on. -/
theorem drop_showOps_eq_bit_append (g p : Byte) (hn : n < 16) :
    (showOps g p).drop (4 * n + 1) =
      bitOps (BitVec.getLsbD (w := 16) (p ++ g) (15 - n)) ++ (showOps g p).drop (4 * (n + 1) + 1) := by
  obtain ⟨-, hdrop⟩ := showOps_cut_before_bit g p hn.le
  obtain ⟨-, hdrop'⟩ := showOps_cut_before_bit g p (n := n + 1) hn
  obtain ⟨hlt, hget⟩ := List.getElem?_eq_some_iff.mp (getElem?_bitsMsbFirst_append p g hn)
  rw [hdrop, hdrop', List.drop_eq_getElem_cons hlt, hget, List.flatMap_cons, List.append_assoc]

/-- Before a bit is sent CLOCK and LATCH are low. -/
theorem exists_runOps_take_showOps_before_bit (g p : Byte) (hc : s.level.clock = false) (hn : n ≤ 16) :
    ∃ t, runOps c i k ((showOps g p).take (4 * n + 1)) s = .next t ∧ t.level.clock = false ∧ t.level.latch = false := by
  obtain ⟨htake, -⟩ := showOps_cut_before_bit g p hn
  have hclock : ((s.setLevel .latch false).record (.lineWrite .latch false)).level.clock = false := hc
  rw [htake, runOps_lineWrite_of_safe (safeWrite_latch false s), State.afterWrite_of_no_edge (v := false) nofun]
  exact ⟨_, runOps_bits _ _ _ _ _ hclock rfl, rfl, rfl⟩

theorem safeWrite_data_of_clock_low (v : Bool) (hc : s.level.clock = false) : SafeWrite .data v s :=
  safeWrite_data fun hhigh => absurd hhigh (by simp [hc])

/-- Within a bit CLOCK is high from the rise to the fall, with the bit on DATA and in stage 0 (R54, R130). -/
theorem exists_runOps_take_bitOps (v : Bool) (hc : s.level.clock = false) (hl : s.level.latch = false) (hr : r < 4) :
    ∃ t, runOps c i k ((bitOps v).take r) s = .next t ∧ t.level.clock = decide (2 ≤ r) ∧
      (2 ≤ r → t.level.data = v ∧ t.sr.getLsbD 0 = v) := by
  have hdata := safeWrite_data_of_clock_low v hc
  have hrise : SafeWrite .clock true ((s.afterWrite .data v).record (.lineWrite .data v)) :=
    safeWrite_clock fun _ _ => hl
  have hstage : (((s.afterWrite .data v).record (.lineWrite .data v)).afterWrite .clock true).sr.getLsbD 0 = v := by
    simpa [State.afterWrite, hc] using getLsbD_chainShift s.sr v 0 (by decide)
  match r, hr with
  | 0, _ => exact ⟨s, rfl, hc, nofun⟩
  | 1, _ => exact ⟨_, runOps_lineWrite_of_safe hdata, hc, by omega⟩
  | 2, _ =>
    exact ⟨_, (runOps_lineWrite_of_safe hdata).trans (runOps_lineWrite_of_safe hrise), rfl, fun _ => ⟨rfl, hstage⟩⟩
  | 3, _ =>
    exact ⟨_, (runOps_lineWrite_of_safe hdata).trans ((runOps_lineWrite_of_safe hrise).trans runOps_delay), rfl,
      fun _ => ⟨rfl, hstage⟩⟩

/-- The same for the `n`-th bit of a frame list, which the bits before it leave a low clock and a low latch. -/
theorem exists_runOps_take_showOps_within_bit (g p : Byte) (hc : s.level.clock = false) (hn : n < 16) (hr : r < 4) :
    ∃ t, runOps c i k ((showOps g p).take (4 * n + 1 + r)) s = .next t ∧ t.level.clock = decide (2 ≤ r) ∧
      (2 ≤ r → t.level.data = BitVec.getLsbD (w := 16) (p ++ g) (15 - n) ∧
        t.sr.getLsbD 0 = BitVec.getLsbD (w := 16) (p ++ g) (15 - n)) := by
  obtain ⟨u, hu, hclock, hlatch⟩ := exists_runOps_take_showOps_before_bit (c := c) (i := i) (k := k) g p hc hn.le
  have htake : (showOps g p).take (4 * n + 1 + r) =
      (showOps g p).take (4 * n + 1) ++ (bitOps (BitVec.getLsbD (w := 16) (p ++ g) (15 - n))).take r := by
    rw [List.take_add, drop_showOps_eq_bit_append g p hn, List.take_append_of_le_length hr.le]
  rw [htake, runOps_append, hu, andThen_next]
  exact exists_runOps_take_bitOps _ hclock hlatch hr

/-- The levels between two micro-operations of a frame list: CLOCK is high in the second half of a bit, and the bit is
then on DATA and in stage 0 (R54, R140, R197). -/
theorem exists_runOps_take_showOps_levels {m : Nat} (g p : Byte) (hc : s.level.clock = false) (hk : 1 ≤ k)
    (hlast : k ≤ 65) :
    ∃ t, runOps c i m ((showOps g p).take k) s = .next t ∧ t.level.clock = decide (2 ≤ (k - 1) % 4) ∧
      (2 ≤ (k - 1) % 4 → t.level.data = BitVec.getLsbD (w := 16) (p ++ g) (15 - (k - 1) / 4) ∧
        t.sr.getLsbD 0 = BitVec.getLsbD (w := 16) (p ++ g) (15 - (k - 1) / 4)) := by
  by_cases hend : k = 65
  · subst hend
    obtain ⟨t, ht, hclock, -⟩ :=
      exists_runOps_take_showOps_before_bit (n := 16) (c := c) (i := i) (k := m) g p hc le_rfl
    exact ⟨t, ht, hclock, by omega⟩
  · have hbit := exists_runOps_take_showOps_within_bit (c := c) (i := i) (k := m) (n := (k - 1) / 4)
      (r := (k - 1) % 4) g p hc (by omega) (by omega)
    rwa [show 4 * ((k - 1) / 4) + 1 + (k - 1) % 4 = k by omega] at hbit

/-! A list under the high latch another frame has left. -/

/-- The micro-operations of a frame list that can stand between a latch just raised and the next rise of CLOCK: no write
of LATCH, and none of CLOCK high. -/
def Harmless (m : MicroOp) : Prop :=
  m = .delay ∨ m = .lineWrite .clock false ∨ ∃ v, m = .lineWrite .data v

/-- Under a low clock a harmless micro-operation runs and leaves CLOCK and LATCH as they are. -/
theorem exists_performTraced_of_harmless {site : Site} {m : MicroOp} (hm : Harmless m) (hc : s.level.clock = false) :
    ∃ t, performTraced site m s = .next t ∧ t.level.clock = false ∧ t.level.latch = s.level.latch := by
  obtain rfl | rfl | ⟨v, rfl⟩ := hm
  · exact ⟨s.record .delay, rfl, hc, rfl⟩
  · exact ⟨_, performTraced_next.mpr ⟨_, lineWrite_of_safe (site := site) (safeWrite_clock_fall s), rfl⟩, rfl, rfl⟩
  · have hsafe := safeWrite_data_of_clock_low v hc
    exact ⟨_, performTraced_next.mpr ⟨_, lineWrite_of_safe hsafe, rfl⟩, hc, rfl⟩

/-- Under a high latch and a low clock a list faults at its first rise of CLOCK (R65). -/
theorem runOps_fault_at_first_rise (hxs : ∀ m ∈ xs, Harmless m) (hc : s.level.clock = false)
    (hl : s.level.latch = true) :
    runOps c i k (xs ++ [.lineWrite .clock true]) s = .fault (.shiftWhileLatchHigh ⟨c, i, k + xs.length⟩) := by
  induction xs generalizing k s with
  | nil => exact runOps_lineWrite_fault (lineWrite_clock_fault hc hl)
  | cons m xs ih =>
    obtain ⟨t, ht, hclock, hlatch⟩ :=
      exists_performTraced_of_harmless (site := ⟨c, i, k⟩) (hxs m List.mem_cons_self) hc
    rw [List.cons_append, runOps_cons, ht, andThen_next,
      ih (fun n hn => hxs n (List.mem_cons_of_mem m hn)) hclock (hlatch.trans hl), List.length_cons,
      Nat.add_right_comm k, Nat.add_assoc k]

/-- Up to its sixteenth rise, a frame list's next rise of CLOCK is at most three harmless micro-operations away. -/
theorem exists_next_rise (g p : Byte) (hn : n < 16) (hr : r < 4) (hlast : 4 * n + r < 62) :
    ∃ xs ns, (showOps g p).drop (4 * n + 1 + r) = xs ++ [.lineWrite .clock true] ++ ns ∧
      xs.length = (5 - r) % 4 ∧ ∀ m ∈ xs, Harmless m := by
  have hbit := drop_showOps_eq_bit_append g p hn
  set next := BitVec.getLsbD (w := 16) (p ++ g) (15 - (n + 1))
  rw [← List.drop_drop, hbit]
  match r, hr with
  | 0, _ => exact ⟨[.lineWrite .data _], _, rfl, rfl, by simp [Harmless]⟩
  | 1, _ => exact ⟨[], _, rfl, rfl, nofun⟩
  | 2, _ =>
    rw [drop_showOps_eq_bit_append g p (n := n + 1) (by omega)]
    exact ⟨[.delay, .lineWrite .clock false, .lineWrite .data next], _, rfl, rfl, by simp [Harmless]⟩
  | 3, _ =>
    rw [drop_showOps_eq_bit_append g p (n := n + 1) (by omega)]
    exact ⟨[.lineWrite .clock false, .lineWrite .data next], _, rfl, rfl, by simp [Harmless]⟩

/-- A list of delays and of writes of the levels the lines have does nothing but go on the trace (R56, R61). -/
theorem runOps_of_held (h : ∀ m ∈ ms, m = .delay ∨ ∃ l, m = .lineWrite l (s.level.get l)) :
    runOps c i k ms s = .next { s with trace := s.trace ++ ms } := by
  induction ms generalizing k s with
  | nil => simp
  | cons m ms ih =>
    have hfirst : performTraced ⟨c, i, k⟩ m s = .next (s.record m) := by
      obtain rfl | ⟨l, rfl⟩ := h m List.mem_cons_self
      · rfl
      · rw [performTraced, perform, lineWrite_of_safe (safeWrite_of_held rfl), State.afterWrite_of_held rfl,
          andThen_next]
    have hrest := ih (k := k + 1) (s := s.record m) fun n hn => h n (List.mem_cons_of_mem m hn)
    rw [runOps_cons, hfirst, andThen_next, hrest, State.record_trace, List.append_assoc]
    rfl

/-- After its sixteenth bit's rise a frame list has that pulse's end and the commit left (R140). -/
theorem drop_showOps_63 (g p : Byte) :
    (showOps g p).drop 63 = [.delay, .lineWrite .clock false, .lineWrite .latch true] := rfl

/-! IRQ's frame on whatever MAIN's has left. -/

/-- A frame is its first bit above the low fifteen. -/
theorem ofBool_append_low_bits (g p : Byte) : BitVec.ofBool (p.getLsbD 7) ++ (p ++ g).extractLsb' 0 15 = p ++ g := by
  apply BitVec.eq_of_getLsbD_eq (w := 1 + 15)
  intro n hn
  rw [BitVec.getLsbD_append, BitVec.getLsbD_extractLsb', Nat.zero_add]
  split_ifs with h
  · simp [h]
  · obtain rfl : n = 15 := by omega
    rw [getLsbD_twoBytes]
    simp

/-- A frame list commits its frame whole also from a high clock, where DATA and stage 0 hold its first bit already: that
bit makes no edge and needs none (R54, R56, R197). -/
theorem runOps_showOps_of_first_bit_held
    (h : s.level.clock = true → s.level.data = p.getLsbD 7 ∧ s.sr.getLsbD 0 = p.getLsbD 7) :
    runOps c i k (showOps g p) s =
      .next { s with
        sr := p ++ g
        out := p ++ g
        level := ⟨true, false, g.getLsbD 0⟩
        trace := s.trace ++ showOps g p } := by
  cases hc : s.level.clock with
  | false => exact runOps_showOps_of_clock_low hc
  | true =>
    obtain ⟨hdata, hstage⟩ := h hc
    rw [runOps_showOps_of_clock_high hc hdata, hstage, ofBool_append_low_bits]

/-! The run goes on with no move of the host's left (R203). -/

theorem stepsFrom_add (m n : Nat) (s : State) : stepsFrom (m + n) s = andThen (stepsFrom m s) (stepsFrom n) := by
  induction m generalizing s with
  | zero => rw [Nat.zero_add]; rfl
  | succ m ih =>
    rw [Nat.add_right_comm, stepsFrom, stepsFrom, andThen_assoc]
    exact congrArg _ (funext ih)

theorem stepsFrom_one (s : State) : stepsFrom 1 s = step s := by
  rw [stepsFrom]
  cases step s <;> rfl

theorem step_of_no_moves (hf : s.fault = none) (hh : s.host = []) : step s = engineStep s := by
  by_cases hi : Idle s
  · obtain ⟨hmain, hirq⟩ := hi
    have hstep : step s = .next s := by
      simp [step, hf, deliver, hh, engineTurn, State.idle, hmain, hirq]
    rw [hstep, engineStep, activeContext_main hirq, State.infl_main, hmain]
  · exact step_eq_engineStep hf hh hi

theorem stepsFrom_eq_engineSteps (n : Nat) (hf : s.fault = none) (hh : s.host = []) :
    stepsFrom n s = engineSteps n s := by
  induction n generalizing s with
  | zero => rfl
  | succ n ih =>
    rw [stepsFrom, engineSteps, step_of_no_moves hf hh]
    cases hs : engineStep s with
    | next t =>
      obtain ⟨ms, hext⟩ := engineStep_extends hs
      exact ih (hext.fault.trans hf) ((engineStep_host hs).trans hh)
    | fault f => rfl
    | refused x => rfl

/-- With no move left, MAIN's record goes through the next part `ms` of its list, fault or not (R27, R203). -/
theorem stepsFrom_resume (hf : s.fault = none) (hh : s.host = []) (hirq : s.inflIrq = none)
    (hmain : s.inflMain = some ⟨i, k⟩) (hms : (microOps s.params i).drop k = ms ++ ns) (hne : ms ≠ []) :
    stepsFrom ms.length s =
      andThen (runOps .main i k ms s) fun t => .next (t.inFlight [] .main (recordAt i (k + ms.length) ns)) := by
  have hsteps := engineSteps_inFlight_eq_runOps (c := .main) (moves := s.host) hirq hms
  rw [recordAt_of_ne_nil (List.append_ne_nil_of_left_ne_nil hne ns), State.inFlight_of_infl (c := .main) hmain,
    hh] at hsteps
  rw [stepsFrom_eq_engineSteps _ hf hh, hsteps]

end

/-! MAIN's frame, the engine's `k` steps, IRQ's frame. -/

/-- IRQ's call has just committed the frame of `g` and `p`, and MAIN's record stands at `r` (R167, R168, R197). -/
structure InterruptFrameCommitted (g p : Byte) (r : InFlight) (s : State) : Prop where
  noMark : NoMark s
  host : s.host = []
  inflIrq : s.inflIrq = none
  inflMain : s.inflMain = some r
  sr : s.sr = p ++ g
  out : s.out = p ++ g
  level : s.level = ⟨true, false, g.getLsbD 0⟩

section

variable {k : Nat} {g p g' p' : Byte} {s t : State} {w w' : CommandWord}

/-- Under the high latch IRQ's frame has left MAIN's goes on to its next rise of CLOCK and faults there (R65, R197). -/
theorem InterruptFrameCommitted.stepsFrom_fault (h : InterruptFrameCommitted g' p' ⟨.showDigit g p, k⟩ s)
    (hk : 1 ≤ k) (hlast : k ≤ 62) :
    stepsFrom ((5 - (k - 1) % 4) % 4 + 1) s =
      .fault (.shiftWhileLatchHigh ⟨.main, .showDigit g p, k + (5 - (k - 1) % 4) % 4⟩) := by
  obtain ⟨xs, ns, hdrop, hlen, hxs⟩ :=
    exists_next_rise g p (n := (k - 1) / 4) (r := (k - 1) % 4) (by omega) (by omega) (by omega)
  rw [show 4 * ((k - 1) / 4) + 1 + (k - 1) % 4 = k by omega] at hdrop
  have hresume := stepsFrom_resume h.noMark.1 h.host h.inflIrq h.inflMain hdrop (by simp)
  have hclock : s.level.clock = false := by rw [h.level]
  have hlatch : s.level.latch = true := by rw [h.level]
  rwa [runOps_fault_at_first_rise hxs hclock hlatch, andThen_fault, List.length_append, hlen] at hresume

/-- After its sixteenth rise MAIN's frame goes on to its end, and of what IRQ's has left nothing changes but MAIN's
record and the trace (R56, R197). -/
theorem InterruptFrameCommitted.stepsFrom_end (h : InterruptFrameCommitted g' p' ⟨.showDigit g p, k⟩ s)
    (hk : 63 ≤ k) (hlast : k ≤ 65) :
    ∃ t, stepsFrom (66 - k) s = .next t ∧ EndedWell t ∧ t.out = p' ++ g' ∧ t.sr = p' ++ g' ∧
      t.level = ⟨true, false, g'.getLsbD 0⟩ := by
  set rest := (showOps g p).drop k with hrest
  have hlen : rest.length = 66 - k := by rw [hrest, List.length_drop, length_showOps]
  have hne : rest ≠ [] := List.ne_nil_of_length_pos (by omega)
  have hheld : ∀ m ∈ rest, m = .delay ∨ ∃ l, m = .lineWrite l (s.level.get l) := by
    intro m hm
    rw [hrest, show k = 63 + (k - 63) by omega, ← List.drop_drop, drop_showOps_63] at hm
    have hmem := List.mem_of_mem_drop hm
    simp only [List.mem_cons, List.not_mem_nil, or_false] at hmem
    obtain rfl | rfl | rfl := hmem
    · exact .inl rfl
    · exact .inr ⟨.clock, by rw [h.level]; rfl⟩
    · exact .inr ⟨.latch, by rw [h.level]; rfl⟩
  have hresume := stepsFrom_resume (ns := []) h.noMark.1 h.host h.inflIrq h.inflMain (List.append_nil rest).symm hne
  rw [runOps_of_held hheld, andThen_next, hlen] at hresume
  exact ⟨_, hresume, ⟨⟨rfl, rfl, h.inflIrq⟩, h.noMark⟩, h.out, h.sr, h.level⟩

variable (hentry : FrameEntry s) (hx : s.params.hostExclusive = false) (hw : decode w = .ok (.showDigit g p))
  (hw' : decode w' = .ok (.showDigit g' p'))
  (hh : s.host = .issue .main w :: (List.replicate k .pass ++ [.call .irq w']))

include hentry hw hh in
/-- MAIN's frame is issued and the engine performs its first `k` micro-operations. -/
theorem stepsFrom_before_call (hk : k < 66)
    (hrun : runOps .main (.showDigit g p) 0 ((showOps g p).take k) (s.afterMove [.call .irq w'] .main) = .next t) :
    stepsFrom (k + 1) s = .next (t.setInfl .main (some ⟨.showDigit g p, k⟩)) := by
  obtain ⟨⟨hf, -⟩, hidle, hready, -⟩ := hentry
  have hsteps := stepsFrom_issue_passes (s := s) (moves := [.call .irq w']) hf (issueEnabled_main.mpr hidle) hw
    (linesConfigured_of_ready hready _) (hk.trans_eq (length_showOps g p).symm) hrun
  rwa [← hh] at hsteps

include hentry hx hw hw' hh in
/-- IRQ's call then runs its frame list from where MAIN's stands. -/
theorem stepsFrom_call (hk : k < 66)
    (hrun : runOps .main (.showDigit g p) 0 ((showOps g p).take k) (s.afterMove [.call .irq w'] .main) = .next t) :
    stepsFrom (k + 2) s =
      runOps .irq (.showDigit g' p') 0 (showOps g' p')
        ((t.setInfl .main (some ⟨.showDigit g p, k⟩)).afterMove [] .irq) := by
  have hbefore := stepsFrom_before_call hentry hw hh hk hrun
  obtain ⟨⟨hf, -⟩, ⟨-, hirq⟩, hready, -⟩ := hentry
  obtain ⟨-, hirq', hfault, -, -, hparams, hhost, -, hdir⟩ := runOps_frame hrun
  have hready' : t.mode = .ready := mode_ready_of_dir_kept hdir hready
  have hcall := step_call (s := t.setInfl .main (some ⟨.showDigit g p, k⟩)) (moves := []) (hfault.trans hf) hhost
    (issueEnabled_irq.mpr ⟨hirq'.trans hirq, .inl ((congrArg _ hparams).trans hx)⟩) hw'
  rw [stepsFrom_add (k + 1) 1, hbefore, andThen_next, stepsFrom_one, hcall]
  exact exec_of_ready (s := (t.setInfl .main (some ⟨.showDigit g p, k⟩)).afterMove [] .irq) _ (hfault.trans hf) hready'

include hentry hx hw hw' hh in
/-- Where CLOCK is low, or the first bit of IRQ's frame is the one MAIN has just sent, IRQ's frame is committed. -/
theorem exists_interruptFrameCommitted (hk : 1 ≤ k) (hlast : k ≤ 65)
    (hbit : 2 ≤ (k - 1) % 4 → p'.getLsbD 7 = (p ++ g).getLsbD (15 - (k - 1) / 4)) :
    ∃ t, stepsFrom (k + 2) s = .next t ∧ InterruptFrameCommitted g' p' ⟨.showDigit g p, k⟩ t := by
  have hcall := fun u => stepsFrom_call (t := u) hentry hx hw hw' hh (by omega)
  obtain ⟨hmark, ⟨-, hirq⟩, -, hclock⟩ := hentry
  obtain ⟨u, hrun, hlevel, hsent⟩ := exists_runOps_take_showOps_levels (c := .main) (i := .showDigit g p) (m := 0)
    (s := s.afterMove [.call .irq w'] .main) g p hclock hk hlast
  obtain ⟨-, hirq', hfault, hrefused, -⟩ := runOps_frame hrun
  refine ⟨_, (hcall u hrun).trans (runOps_showOps_of_first_bit_held fun hhigh => ?_), ?_⟩
  · have hplace : 2 ≤ (k - 1) % 4 := of_decide_eq_true (hlevel.symm.trans hhigh)
    obtain ⟨hdata, hstage⟩ := hsent hplace
    exact ⟨hdata.trans (hbit hplace).symm, hstage.trans (hbit hplace).symm⟩
  · exact ⟨⟨hfault.trans hmark.1, hrefused.trans hmark.2⟩, rfl, hirq'.trans hirq, rfl, rfl, rfl, rfl⟩

end

/-- Settles O53: under a low clock IRQ's frame needs nothing of MAIN's, and it leaves the latch high for MAIN's next
rise. -/
theorem preemptionAtALowClock : Obligations.PreemptionAtALowClock := by
  unfold Obligations.PreemptionAtALowClock
  intro g p g' p' w w' s k hentry hx hw hw' hk hlast hlow hh
  obtain ⟨t, hsteps, ht⟩ :=
    exists_interruptFrameCommitted hentry hx hw hw' hh hk (by omega) fun hhigh => absurd hlow hhigh.not_gt
  refine ⟨⟨t, hsteps, ht.out, ht.inflMain, ht.inflIrq⟩, ?_⟩
  have hfault := ht.stepsFrom_fault hk hlast
  rw [stepsFrom_add, hsteps, andThen_next]
  rwa [show (5 - (k - 1) % 4) % 4 + 1 = 2 - (k - 1) % 4 by omega,
    show (5 - (k - 1) % 4) % 4 = 1 - (k - 1) % 4 by omega] at hfault

/-- Settles O54: MAIN has not yet moved the outputs, and IRQ's first DATA write meets MAIN's high clock. -/
theorem preemptionAtAHighClockClashes : Obligations.PreemptionAtAHighClockClashes := by
  unfold Obligations.PreemptionAtAHighClockClashes
  intro g p g' p' w w' s k hentry hx hw hw' hk hlast hhigh hbit hh
  have ⟨_, _, _, hclock⟩ := hentry
  obtain ⟨t, hrun, hlevel, hsent⟩ :=
    exists_runOps_take_showOps_levels (c := .main) (i := .showDigit g p) (m := 0)
      (s := s.afterMove [.call .irq w'] .main) g p hclock (k := k) (by omega) (by omega)
  obtain ⟨hdata, -⟩ := hsent hhigh
  refine ⟨⟨_, stepsFrom_before_call hentry hw hh (by omega) hrun, ?_⟩, ?_⟩
  · rw [show k = k - 1 + 1 by omega] at hrun
    obtain ⟨hout, -⟩ := runOps_take_showOps (by omega) hrun
    exact hout
  · rw [stepsFrom_call hentry hx hw hw' hh (by omega) hrun]
    exact runOps_showOps_fault_of_clock_high (hlevel.trans (decide_eq_true hhigh)) fun h => hbit (h.trans hdata)

/-- Settles O55: the bit MAIN has just sent stands for IRQ's first one, and the latch is left high for MAIN's next
rise. -/
theorem preemptionAtAHighClockMatches : Obligations.PreemptionAtAHighClockMatches := by
  unfold Obligations.PreemptionAtAHighClockMatches
  intro g p g' p' w w' s k hentry hx hw hw' hk hlast hhigh hbit hh
  obtain ⟨t, hsteps, ht⟩ := exists_interruptFrameCommitted hentry hx hw hw' hh (by omega) (by omega) fun _ => hbit
  refine ⟨⟨t, hsteps, ht.out, ht.sr⟩, fun hrise => ?_⟩
  have hfault := ht.stepsFrom_fault (by omega) hrise
  rw [stepsFrom_add, hsteps, andThen_next]
  rwa [show (5 - (k - 1) % 4) % 4 + 1 = 6 - (k - 1) % 4 by omega,
    show (5 - (k - 1) % 4) % 4 = 5 - (k - 1) % 4 by omega] at hfault

/-- Settles O56: what MAIN has left after its sixteenth rise writes no level IRQ's frame has not left already. -/
theorem preemptionAfterTheLastBitLosesTheFrame : Obligations.PreemptionAfterTheLastBitLosesTheFrame := by
  unfold Obligations.PreemptionAfterTheLastBitLosesTheFrame
  intro g p g' p' w w' s k hentry hx hw hw' hk hlast hbit hh
  have hsent : 2 ≤ (k - 1) % 4 → p'.getLsbD 7 = (p ++ g).getLsbD (15 - (k - 1) / 4) := fun hhigh => by
    rw [show 15 - (k - 1) / 4 = 0 by omega]
    exact (hbit.resolve_left (by omega)).trans (getLsbD_twoBytes p g 0).symm
  obtain ⟨t, hsteps, ht⟩ := exists_interruptFrameCommitted hentry hx hw hw' hh (by omega) hlast hsent
  rw [stepsFrom_add, hsteps, andThen_next]
  exact ht.stepsFrom_end hk hlast

end Sys2Proof.Machine
end
